-- ==== Sys2Proof/Word.lean ====
section
/-! DEFINITION. The word types of the block: bytes, the 16-bit CRC word, hex digits, and the two byte arrays of
fixed length (00_scope.md R8, R10; 10_state.md R25, R29, R32). -/

namespace Sys2Proof

/-- A `u8` (R8). -/
abbrev Byte := BitVec 8

/-- A `u16` (R8): the CRC engine's word. -/
abbrev Word := BitVec 16

/-- The value of one hex digit, 0 to 15 (R130). -/
abbrev Nibble := BitVec 4

/-- The 16 raw bytes of the encryption key (R32). -/
abbrev Key := Vector Byte 16

/-- The 18 bytes of the binary header (R29), indexed 0 to 17. -/
abbrev Header := Vector Byte 18

end Sys2Proof
end

