-- ==== Sys2Proof/Config.lean ====
section
/-! DEFINITION. What a construction of the block fixes (00_scope.md R7): the parameters, as plain data, and the free
functions that answer for the external AEAD primitive where the construction binds no answer (43_aead_adapter.md
R180, R182, R183; log 5). -/

namespace Sys2Proof

/-- The operands of one `AEAD_DECRYPT` call (R183). -/
structure AeadQuery where
  key   : Key
  nonce : List Byte
  aad   : List Byte
  ct    : List Byte
  tag   : List Byte
  deriving DecidableEq, Repr

/-- `aead_setkey` where the construction binds no answer. No body: nothing is known of it (R182, R186; log 5). -/
opaque Config.aeadSetKeyFree : Key → Bool

/-- `aead_decrypt` where the construction binds no answer: FAIL (`none`), or a plaintext of the ciphertext's length
(R183, D32). No body: no cryptographic law is assumed (R186; log 5). -/
opaque Config.aeadDecryptFree : (q : AeadQuery) → Option (Vector Byte q.ct.length)

/-- The parameters of R7. Nothing in the block changes them after construction (R73).
`aeadKeyTable` and `aeadTable` are the part of the two configuration functions that a construction binds, as finite
tables, so that the state stays plain data; a query they do not list is answered by the free functions above. -/
structure Params where
  /-- `PT_CAP`, at least 1 (D25). -/
  ptCap : Nat
  /-- `PT_CHECK_CRC`. -/
  ptCheckCrc : Bool
  /-- `EN_CAP`. -/
  enCap : Nat
  /-- `PT_CLEAR_ON_IDLE`, `false` for this hardware (D7). -/
  ptClearOnIdle : Bool := false
  /-- `TWTL_WRAP`, `false` for this hardware (D8). -/
  twtlWrap : Bool := false
  /-- `MAX_STR`, `none` for the spec's infinity (D29). -/
  maxStr : Option Nat := none
  /-- Answers of `aead_setkey` the construction binds. -/
  aeadKeyTable : List (Key × Bool) := []
  /-- Answers of `aead_decrypt` the construction binds; `none` is FAIL. -/
  aeadTable : List (AeadQuery × Option (List Byte)) := []
  deriving DecidableEq, Repr

/-- The parameters `State.reset` is constructed with. DESIGN CHOICE (log 4, unsafe): R7 leaves the first three OPEN. -/
def Params.sample : Params := { ptCap := 16, ptCheckCrc := true, enCap := 64 }

end Sys2Proof
end

