-- ==== Sys2Proof/Syntax.lean ====
section
/-! DEFINITION. What the host sends (30_encoding.md R80, R83) and the instructions: one constructor per row of
spec/opcode_table.json, the six host transactions and the eleven internal operations. -/

namespace Sys2Proof

/-- One host transaction: the 12-bit command word, and the byte string where one is given (R80, R83). -/
structure Transaction where
  cmd : BitVec 12
  str : Option (List Byte)
  deriving DecidableEq, Repr

/-- The rows of the opcode table. The first six are host transactions (R81). The others are internal operations,
which no command word encodes; they are called by the rules of the host transactions. -/
inductive Instr where
  /-- `PT_PROCESS_BYTE` (R210). -/
  | ptProcessByte (b : Byte)
  /-- `PT_RESET` (R221). -/
  | ptReset
  /-- `EN_PROCESS_BYTE` (R250). -/
  | enProcessByte (b : Byte)
  /-- `EN_RESET` (R261). -/
  | enReset
  /-- `EN_SET_KEY` (R262). -/
  | enSetKey (str : List Byte)
  /-- `CRC16_COMPUTE` (R111). -/
  | crc16Compute (str : List Byte)
  /-- `CRC16_STEP` (R110). -/
  | crc16Step (crc : Word) (b : Byte)
  /-- `HEX_NIBBLE` (R130). -/
  | hexNibble (c : Byte)
  /-- `KEY_DECODE` (R131). -/
  | keyDecode (str : List Byte)
  /-- `HDR_RESET` (R151). -/
  | hdrReset
  /-- `HDR_ADD_BYTE` (R152). -/
  | hdrAddByte (b : Byte)
  /-- `HDR_IS_COMPLETE` (R153). -/
  | hdrIsComplete
  /-- `HDR_TELEGRAM_WITH_TAG_LENGTH` (R155). -/
  | hdrTelegramWithTagLength
  /-- `HDR_CHECK_CONSISTENCY` (R156). -/
  | hdrCheckConsistency
  /-- `HDR_NONCE` (R157). -/
  | hdrNonce
  /-- `AEAD_SET_KEY` (R182). -/
  | aeadSetKey (key : Key)
  /-- `AEAD_DECRYPT` (R183). -/
  | aeadDecrypt (key : Key) (nonce aad ct tag : List Byte)
  deriving DecidableEq, Repr

/-- Is the instruction a host transaction of R81 (and not an internal operation)? -/
def Instr.isHost : Instr → Bool
  | .ptProcessByte _ | .ptReset | .enProcessByte _ | .enReset | .enSetKey _ | .crc16Compute _ => true
  | .crc16Step _ _ | .hexNibble _ | .keyDecode _ | .hdrReset | .hdrAddByte _ | .hdrIsComplete
  | .hdrTelegramWithTagLength | .hdrCheckConsistency | .hdrNonce | .aeadSetKey _ | .aeadDecrypt _ _ _ _ _ => false

end Sys2Proof
end

