-- ==== Sys2Proof/Machine/State.lean ====
section
/-! DEFINITION. The state of the block as plain data: the PT unit (10_state.md R22 to R27), the EN unit (R28 to R33),
the construction parameters (00_scope.md R7), and the model's own host side of the interface (the pending
transactions, the last response, the value an internal operation returned). -/

namespace Sys2Proof.Machine

/-- `PT.state` (R22). The fourth constructor is encoding 3 of the 2-bit register, which no rule writes. -/
inductive PtState where
  | idle
  | inFrame
  | inCrc
  | reserved
  deriving DecidableEq, Repr

/-- `EN.state` (R28). The fourth constructor is encoding 3 of the 2-bit register, which no rule writes. -/
inductive EnState where
  | idle
  | accumulatingHeader
  | accumulatingTelegram
  | reserved
  deriving DecidableEq, Repr

/-- The error kinds of 60_exceptions.md R301. An error is a response, not a trap (R300). -/
inductive ErrorKind where
  | bufferOverflow
  | packetStartSymbolInPacket
  | incorrectCrcCharacter
  | crcMismatch
  | headerCorrupted
  | failedToSetEncryptionKey
  | decryptionFailed
  | keyLengthInvalid
  | keyNotHex
  deriving DecidableEq, Repr

/-- The response of a transaction, as the sum type R84 asks for. -/
inductive Response where
  | none
  | packet (bytes : List Byte)
  | error (kind : ErrorKind)
  | crc (value : Word)
  deriving DecidableEq, Repr

/-- What an internal operation returned to its caller. The model's own (log 1): the spec's functions return these
values, and a step's only result is a state. -/
inductive OpResult where
  /-- Nothing returned yet. -/
  | none
  /-- `CRC16_STEP` (R110). -/
  | word (w : Word)
  /-- `HEX_NIBBLE` (R130): `Option.none` is the spec's NONE. -/
  | nibble (n : Option Nibble)
  /-- `KEY_DECODE` (R131), success. -/
  | key (k : Key)
  /-- `KEY_DECODE` (R131), ERROR(kind). -/
  | keyError (e : ErrorKind)
  /-- `HDR_IS_COMPLETE` (R153), `HDR_CHECK_CONSISTENCY` (R156), `AEAD_SET_KEY` (R182). -/
  | bool (b : Bool)
  /-- `HDR_TELEGRAM_WITH_TAG_LENGTH` (R155), which may be negative. -/
  | int (i : Int)
  /-- `HDR_NONCE` (R157). -/
  | bytes (l : List Byte)
  /-- `AEAD_DECRYPT` (R183): `Option.none` is FAIL. -/
  | plaintext (p : Option (List Byte))
  deriving DecidableEq, Repr

/-- An internal buffer: the bytes written so far, indexes strictly rising. An index that is not listed holds no known
byte, and reading it faults (R23, R30, R31, U1; log 7). -/
abbrev Buf := List Host.Cell

/-- The PT unit (R22 to R26). -/
structure PtUnit where
  /-- `PT.state` (R22). -/
  state : PtState
  /-- `PT.buf` (R23). -/
  buf : Buf
  /-- `PT.len` (R24). -/
  len : Nat
  /-- `PT.crc_acc` (R25). -/
  crcAcc : Word
  /-- `PT.crc_nibbles` (R26). -/
  crcNibbles : Nat
  deriving DecidableEq, Repr

/-- The EN unit (R28 to R32). -/
structure EnUnit where
  /-- `EN.state` (R28). -/
  state : EnState
  /-- `EN.hdr` (R29). -/
  hdr : Header
  /-- `EN.hdr_count` (R29). -/
  hdrCount : Nat
  /-- `EN.ct` (R30). -/
  ct : Buf
  /-- `EN.ct_len` (R30). -/
  ctLen : Nat
  /-- `EN.pt` (R31). -/
  pt : Buf
  /-- `EN.key` (R32). -/
  key : Key
  /-- `EN.key_loaded` (R32). -/
  keyLoaded : Bool
  deriving DecidableEq, Repr

/-- The state of the block and of its host side. -/
structure State where
  /-- The construction parameters (R7, R27, R33); no step changes them (R73). -/
  params : Params
  /-- The PT unit. -/
  pt : PtUnit
  /-- The EN unit. -/
  en : EnUnit
  /-- Transactions the host has issued and the block has not taken yet, the next one first (log 2). -/
  pending : List Transaction
  /-- The response of the last transaction (R84). -/
  resp : Response
  /-- What the last internal operation returned (log 1). -/
  ret : OpResult
  deriving DecidableEq, Repr

/-- The model faults of R307, each a stop the spec names, and one of the model's own. -/
inductive Fault where
  /-- UNREACHABLE_STATE: a process-byte transaction finds a state register at encoding 3 (R22, R28). Safe. -/
  | unreachableState
  /-- BUFFER_BOUNDS: `MemRead` or `MemWrite` outside a buffer's capacity (R61). Safe. -/
  | bufferBounds
  /-- HDR_OVERRUN: `HDR_ADD_BYTE` on a full header (R152). Safe. -/
  | hdrOverrun
  /-- HDR_INCOMPLETE: a header field read with fewer than 18 bytes (R154). Safe. -/
  | hdrIncomplete
  /-- KEY_NOT_LOADED: an EN frame completes before any successful `EN_SET_KEY` (R258, D9). Safe. -/
  | keyNotLoaded
  /-- AEAD_LENGTH: `aead_decrypt` answers a plaintext of the wrong length (R183, D32). Safe. -/
  | aeadLength
  /-- The model's own: `MemRead` of a buffer byte that nothing has written (U1, log 7). Safe. -/
  | uninitialisedByte
  deriving DecidableEq, Repr

/-- The refusals of R307: a transaction is rejected before it has any effect. -/
inductive Refusal where
  /-- RESERVED_OP: the decoder, on `op` 0x6 to 0xF (R94). Safe. -/
  | reservedOp
  /-- NONZERO_DATA: the decoder, on `data` other than 0 with an operation that takes no byte (R82, R94). Safe. -/
  | nonzeroData
  /-- UNEXPECTED_OPERAND: the decoder, on a string with an operation that takes none (R83, R94). Safe. -/
  | unexpectedOperand
  /-- MISSING_OPERAND: the decoder, on no string with an operation that needs one (R83, R94). Safe. -/
  | missingOperand
  /-- STRING_TOO_LONG: the decoder, on a string longer than `MAX_STR` (R83). Safe. -/
  | stringTooLong
  /-- CONCURRENT_ACCESS: raised by nobody, since transactions are atomic here and cannot overlap (R74). Safe. -/
  | concurrentAccess
  /-- An instruction without a meaning in this model, by its mnemonic; no arm of `exec` raises it. Safe. -/
  | notModelled (mnemonic : String)
  deriving DecidableEq, Repr

/-- The PT unit at construction (R22 to R26, R340). -/
def PtUnit.init : PtUnit :=
  { state := .idle, buf := [], len := 0, crcAcc := 0x0000#16, crcNibbles := 0 }

/-- The EN unit at construction (R28 to R32, R340). The bytes of `hdr` and `key` are unspecified: zero is the model's
value (logs 8 and 9, unsafe). -/
def EnUnit.init : EnUnit :=
  { state := .idle, hdr := Vector.replicate 18 0#8, hdrCount := 0, ct := [], ctLen := 0, pt := [],
    key := Vector.replicate 16 0#8, keyLoaded := false }

/-- Construction, the block's power-on reset, with any parameters (R340). -/
def State.construct (p : Params) : State :=
  { params := p, pt := PtUnit.init, en := EnUnit.init, pending := [], resp := .none, ret := .none }

/-- The block right after construction with the sample parameters (R340; log 4 for the parameters). -/
def State.reset : State := State.construct Params.sample

end Sys2Proof.Machine
end

