-- ==== Sys2Proof/WellFormed.lean ====
section
/-! DEFINITION. The checks on an instruction's operands: the string bound `MAX_STR` (30_encoding.md R83) and the
operand lengths of the AEAD call (43_aead_adapter.md R183). -/

namespace Sys2Proof

/-- A string operand fits `MAX_STR`; `none` is the spec's infinity (R83, D29). -/
def strFits : Option Nat → List Byte → Bool
  | none, _ => true
  | some m, s => decide (s.length ≤ m)

/-- The operand checks of each instruction. -/
def Instr.wellFormed (maxStr : Option Nat) : Instr → Bool
  | .ptProcessByte _ => true
  | .ptReset => true
  | .enProcessByte _ => true
  | .enReset => true
  | .enSetKey s => strFits maxStr s
  | .crc16Compute s => strFits maxStr s
  | .crc16Step _ _ => true
  | .hexNibble _ => true
  | .keyDecode s => strFits maxStr s
  | .hdrReset => true
  | .hdrAddByte _ => true
  | .hdrIsComplete => true
  | .hdrTelegramWithTagLength => true
  | .hdrCheckConsistency => true
  | .hdrNonce => true
  | .aeadSetKey _ => true
  | .aeadDecrypt _ nonce aad ct tag =>
      decide (nonce.length = 12 ∧ aad.length = 17 ∧ 14 ≤ ct.length ∧ tag.length = 12)

end Sys2Proof
end

