-- ==== Sys2Proof/Decode.lean ====
section
/-! DEFINITION. Decoding and encoding of host transactions (30_encoding.md R80 to R83, R94): total, rejecting by the
spec's refusal names. Internal operations have no encoding. -/

namespace Sys2Proof

open Sys2Proof.Machine (Refusal)

/-- `op = cmd[11:8]` (R80). -/
def opField (cmd : BitVec 12) : BitVec 4 := cmd.extractLsb' 8 4

/-- `data = cmd[7:0]` (R80). -/
def dataField (cmd : BitVec 12) : Byte := cmd.extractLsb' 0 8

/-- The command word with the two fields (R80). -/
def cmdWord (op : BitVec 4) (data : Byte) : BitVec 12 := op ++ data

/-- A byte operation: `data` is the byte, and no string belongs (R82, R83). -/
def decodeByteOp (t : Transaction) (mk : Byte → Instr) : Except Refusal Instr :=
  match t.str with
  | none => .ok (mk (dataField t.cmd))
  | some _ => .error .unexpectedOperand

/-- An operation without operands: `data` must be 0, and no string belongs (R82, R83). -/
def decodePlainOp (t : Transaction) (i : Instr) : Except Refusal Instr :=
  if dataField t.cmd = 0x00#8 then
    match t.str with
    | none => .ok i
    | some _ => .error .unexpectedOperand
  else .error .nonzeroData

/-- A string operation: `data` must be 0, a string is needed, of at most `MAX_STR` bytes (R82, R83). -/
def decodeStringOp (maxStr : Option Nat) (t : Transaction) (mk : List Byte → Instr) : Except Refusal Instr :=
  if dataField t.cmd = 0x00#8 then
    match t.str with
    | none => .error .missingOperand
    | some s => if strFits maxStr s then .ok (mk s) else .error .stringTooLong
  else .error .nonzeroData

/-- The operation codes of R81; 0x6 to 0xF are reserved (R94). Where several refusals apply, the order is the op code,
then `data`, then the string (log 11). -/
def decode (maxStr : Option Nat) (t : Transaction) : Except Refusal Instr :=
  match (opField t.cmd).toNat with
  | 0x0 => decodeByteOp t .ptProcessByte
  | 0x1 => decodePlainOp t .ptReset
  | 0x2 => decodeByteOp t .enProcessByte
  | 0x3 => decodePlainOp t .enReset
  | 0x4 => decodeStringOp maxStr t .enSetKey
  | 0x5 => decodeStringOp maxStr t .crc16Compute
  | _ => .error .reservedOp

/-- The transaction of a host operation (R81, R95); an internal operation has none. -/
def encode : Instr → Option Transaction
  | .ptProcessByte b => some ⟨cmdWord 0x0#4 b, none⟩
  | .ptReset => some ⟨cmdWord 0x1#4 0x00#8, none⟩
  | .enProcessByte b => some ⟨cmdWord 0x2#4 b, none⟩
  | .enReset => some ⟨cmdWord 0x3#4 0x00#8, none⟩
  | .enSetKey s => some ⟨cmdWord 0x4#4 0x00#8, some s⟩
  | .crc16Compute s => some ⟨cmdWord 0x5#4 0x00#8, some s⟩
  | .crc16Step _ _ => none
  | .hexNibble _ => none
  | .keyDecode _ => none
  | .hdrReset => none
  | .hdrAddByte _ => none
  | .hdrIsComplete => none
  | .hdrTelegramWithTagLength => none
  | .hdrCheckConsistency => none
  | .hdrNonce => none
  | .aeadSetKey _ => none
  | .aeadDecrypt _ _ _ _ _ => none

/-- Does the operation take a string (R83)? -/
def opTakesString (op : BitVec 4) : Bool := decide (op = 0x4#4 ∨ op = 0x5#4)

/-- The transaction whose command word has the bits of `w` (bit 0 the least significant), with the empty string where
the operation needs one: "operand words of zeros" (log 3). -/
def tableTransaction (w : Nat) : Transaction :=
  let cmd := BitVec.ofNat 12 w
  { cmd := cmd, str := if opTakesString (opField cmd) then some [] else none }

/-- The instruction the decoder reads from a table word. A number of more than 12 bits is no command word. -/
def decodeTableWord (_nbits w : Nat) : Option Instr :=
  if w < 2 ^ 12 then
    match decode none (tableTransaction w) with
    | .ok i => some i
    | .error _ => none
  else none

end Sys2Proof
end

