-- ==== Sys2Proof/Machine/Ops.lean ====
section
/-! DEFINITION. The shared operations: buffer reads and writes with the spec's bounds check (20_memory.md R61), ending
a transaction with a response (00_scope.md R11, 60_exceptions.md R300), applying a unit's step to the whole state, and
taking the next transaction (30_encoding.md R80). -/

namespace Sys2Proof.Machine

/-- The outcome of one step of this machine. -/
abbrev Out := Host.Outcome State Fault Refusal

/-- What the PT unit's part of a transaction gives: the unit after it and the response (R67), or a model fault
(R307). -/
abbrev PtOut := Except Fault (PtUnit × Response)

/-- The same for the EN unit. -/
abbrev EnOut := Except Fault (EnUnit × Response)

/-! ### Buffers -/

/-- The byte at one index; `none` where nothing has been written (log 7). -/
def bufRead : Buf → Nat → Option Byte
  | [], _ => none
  | (i, b) :: m, a => if i = a then some b else bufRead m a

/-- Write one byte, keeping the indexes strictly rising. -/
def bufWrite : Buf → Nat → Byte → Buf
  | [], a, v => [(a, v)]
  | (i, b) :: m, a, v =>
    if a < i then (a, v) :: (i, b) :: m
    else if a = i then (a, v) :: m
    else (i, b) :: bufWrite m a v

/-- The bytes `i` to `i + n - 1`, if all of them have been written. -/
def bufReadRange (m : Buf) (i : Nat) : Nat → Option (List Byte)
  | 0 => some []
  | n + 1 =>
    match bufRead m i, bufReadRange m (i + 1) n with
    | some b, some l => some (b :: l)
    | _, _ => none

/-- Write the bytes of a string from index `i` on. -/
def bufWriteRange (m : Buf) (i : Nat) : List Byte → Buf
  | [] => m
  | b :: l => bufWriteRange (bufWrite m i b) (i + 1) l

/-- The canonical form of a buffer: indexes strictly rising (so each index at most once). -/
def bufWf : Buf → Bool
  | [] => true
  | [_] => true
  | (i, _) :: (j, b) :: m => decide (i < j) && bufWf ((j, b) :: m)

/-- Every index of the buffer is below the capacity. -/
def bufWithin (cap : Nat) (m : Buf) : Bool := m.all fun c => decide (c.1 < cap)

/-- `MemRead(B, i, n)` of R61. -/
def memRead (cap : Nat) (m : Buf) (i n : Nat) : Except Fault (List Byte) :=
  if i + n ≤ cap then
    match bufReadRange m i n with
    | some l => .ok l
    | none => .error .uninitialisedByte
  else .error .bufferBounds

/-- `MemWrite(B, i, |v|, v)` of R61. -/
def memWrite (cap : Nat) (m : Buf) (i : Nat) (v : List Byte) : Except Fault Buf :=
  if i + v.length ≤ cap then .ok (bufWriteRange m i v) else .error .bufferBounds

/-! ### Responses -/

/-- `respond None` (R11). -/
def respondNone {U : Type} (u : U) : Except Fault (U × Response) := .ok (u, .none)

/-- `respond Packet(p)` (R11). The response holds a copy of the bytes (R35, log 13). -/
def respondPacket {U : Type} (p : List Byte) (u : U) : Except Fault (U × Response) := .ok (u, .packet p)

/-- `respond Error(k)`, also written `raise Error(k)` (R11). An error is a response and nothing else: no trap, no saved
state, no transfer of control (R300, R305). -/
def raiseError {U : Type} (k : ErrorKind) (u : U) : Except Fault (U × Response) := .ok (u, .error k)

/-- A transaction on the PT unit: the unit's new state and the response belong to one step (R12, R67); nothing else
changes (R69). -/
def onPt (s : State) : PtOut → Out
  | .ok (u, r) => .next { s with pt := u, resp := r }
  | .error f => .fault f

/-- A transaction on the EN unit (R12, R67, R69). -/
def onEn (s : State) : EnOut → Out
  | .ok (u, r) => .next { s with en := u, resp := r }
  | .error f => .fault f

/-- A transaction that changes no unit (`CRC16_COMPUTE`, R68). -/
def respondOnly (s : State) (r : Response) : Out := .next { s with resp := r }

/-! ### Internal operations run on their own (log 1) -/

/-- An internal operation that returns a value and writes no state. -/
def returnValue (s : State) (v : OpResult) : Out := .next { s with ret := v }

/-- An internal operation that returns a value or meets a model fault. -/
def returnOrFault (s : State) : Except Fault OpResult → Out
  | .ok v => returnValue s v
  | .error f => .fault f

/-- An internal operation that writes the EN unit and returns nothing. -/
def updateEn (s : State) : Except Fault EnUnit → Out
  | .ok u => .next { s with en := u }
  | .error f => .fault f

/-! ### The host side (R80, log 2) -/

/-- The host issues a transaction after those already pending. -/
def issue (s : State) (t : Transaction) : State := { s with pending := s.pending ++ [t] }

/-- Put a transaction where the next step takes it. -/
def placeNext (s : State) (t : Transaction) : State := { s with pending := t :: s.pending }

/-- Take the next pending transaction, if there is one. -/
def fetch (s : State) : Option (Transaction × State) :=
  match s.pending with
  | [] => none
  | t :: rest => some (t, { s with pending := rest })

/-- Decode a taken transaction under the construction's `MAX_STR` (R83). -/
def decodeFetched (s : State) (t : Transaction) : Except Refusal Instr := decode s.params.maxStr t

end Sys2Proof.Machine
end

