-- ==== Sys2Proof/Machine/Operands.lean ====
section
/-! DEFINITION. The operand forms: sentinels and byte classes (30_encoding.md R86, R87), hex digits (41_key_codec.md
R130), the trailer's digit fold (R93), the key pairs (20_memory.md R65), and the header's fields (42_header.md R154,
20_memory.md R62, R63). -/

namespace Sys2Proof.Machine

/-- `'/'`, the plaintext start sentinel (R10, R86). PRESUMED ASCII (log 18), as are the codes below. -/
def slash : Byte := 0x2F#8

/-- `'!'`, the plaintext end sentinel (R10, R86). -/
def bang : Byte := 0x21#8

/-- The encrypted start sentinel and header tag (R7, R87). -/
def enSentinel : Byte := 0xDB#8

/-- `hexval(c)` (R130): the value of a hex digit of either case, or NONE. -/
def hexval (c : Byte) : Option Nibble :=
  if 0x30 ≤ c.toNat ∧ c.toNat ≤ 0x39 then some (BitVec.ofNat 4 (c.toNat - 0x30))
  else if 0x41 ≤ c.toNat ∧ c.toNat ≤ 0x46 then some (BitVec.ofNat 4 (c.toNat - 0x41 + 10))
  else if 0x61 ≤ c.toNat ∧ c.toNat ≤ 0x66 then some (BitVec.ofNat 4 (c.toNat - 0x61 + 10))
  else none

/-- The four disjoint classes of the PT unit's input bytes (R86). -/
inductive PtClass where
  | sof
  | eof
  | hex
  | other
  deriving DecidableEq, Repr

/-- The class of a byte for the PT unit (R86). -/
def ptClass (b : Byte) : PtClass :=
  if b = slash then .sof
  else if b = bang then .eof
  else if (hexval b).isSome then .hex
  else .other

/-- Is the byte the EN unit's `SOF` (R87)? -/
def enIsSof (b : Byte) : Bool := decide (b = enSentinel)

/-- One trailer digit: `((crc_acc << 4) OR zext_16(hexval(b)))[15:0]` (R93, R218). -/
def foldNibble (acc : Word) (d : Nibble) : Word := (acc <<< 4) ||| d.setWidth 16

/-- One key byte from the values of its two characters, the first the high nibble (R65, R131; log 18). -/
def hexPair (hi lo : Nibble) : Byte := hi ++ lo

/-- The value of a character of a key string, all of whose characters have been checked to be hex (R131). -/
def digitOf (c : Byte) : Nibble := (hexval c).getD 0#4

/-! ### Header fields (R90, R154): pure reads of the 18 bytes -/

/-- `tag()`. -/
def hdrTag (h : Header) : Byte := h[0]

/-- `title_len()`. -/
def hdrTitleLen (h : Header) : Byte := h[1]

/-- `system_title()`, bytes 2 to 9 in wire order. -/
def hdrSystemTitle (h : Header) : List Byte := [h[2], h[3], h[4], h[5], h[6], h[7], h[8], h[9]]

/-- `long_form()`. -/
def hdrLongForm (h : Header) : Byte := h[10]

/-- `total_length()`, big-endian (R62). -/
def hdrTotalLength (h : Header) : Nat := h[11].toNat * 256 + h[12].toNat

/-- `control_field()`. -/
def hdrControlField (h : Header) : Byte := h[13]

/-- The invocation counter's bytes in wire order. -/
def hdrCounterBytes (h : Header) : List Byte := [h[14], h[15], h[16], h[17]]

/-- `invocation_counter()`, big-endian (R62). No rule reads its value (R154). -/
def hdrInvocationCounter (h : Header) : Nat :=
  h[14].toNat * 2 ^ 24 + h[15].toNat * 2 ^ 16 + h[16].toNat * 2 ^ 8 + h[17].toNat

/-- `tw()` (R155): `total_length − 5` on exact integers, or modulo 2^16 under `TWTL_WRAP` (D8). -/
def hdrTw (p : Params) (h : Header) : Int :=
  if p.twtlWrap then ((hdrTotalLength h : Int) - 5) % 65536 else (hdrTotalLength h : Int) - 5

/-- The five conditions of `HDR_CHECK_CONSISTENCY` (R156). -/
def hdrConsistent (p : Params) (h : Header) : Bool :=
  decide (hdrTag h = 0xDB#8 ∧ hdrTitleLen h = 0x08#8 ∧ hdrLongForm h = 0x82#8 ∧ hdrControlField h = 0x30#8 ∧
    25 < hdrTw p h)

/-- The nonce: system title, then counter bytes, in wire order (R63, R157, D36). -/
def hdrNonceBytes (h : Header) : List Byte := hdrSystemTitle h ++ hdrCounterBytes h

end Sys2Proof.Machine
end

