-- ==== Sys2Proof/Machine/Flags.lean ====
section
/-! DEFINITION. The block has no condition flags (10_state.md R20, R21). This file holds the tests on status-like state
that the rules make, and the numeric codes of states, errors and responses (R22, R28, 30_encoding.md R84,
60_exceptions.md R301). -/

namespace Sys2Proof.Machine

/-- Buffer full: `PT.len = PT_CAP` (00_scope.md glossary, R210). -/
def ptFull (p : Params) (u : PtUnit) : Bool := decide (u.len = p.ptCap)

/-- `HDR_IS_COMPLETE()` (R153). -/
def hdrComplete (u : EnUnit) : Bool := decide (u.hdrCount = 18)

/-- The encoding of `PT.state` (R22). -/
def ptStateCode : PtState → BitVec 2
  | .idle => 0
  | .inFrame => 1
  | .inCrc => 2
  | .reserved => 3

/-- The encoding of `EN.state` (R28). -/
def enStateCode : EnState → BitVec 2
  | .idle => 0
  | .accumulatingHeader => 1
  | .accumulatingTelegram => 2
  | .reserved => 3

/-- The error codes of R301. Codes 0 and 10 to 15 stand for no error kind. -/
def errorCode : ErrorKind → BitVec 4
  | .bufferOverflow => 1
  | .packetStartSymbolInPacket => 2
  | .incorrectCrcCharacter => 3
  | .crcMismatch => 4
  | .headerCorrupted => 5
  | .failedToSetEncryptionKey => 6
  | .decryptionFailed => 7
  | .keyLengthInvalid => 8
  | .keyNotHex => 9

/-- The response record of R84, the wire form of a response. -/
structure ResponseRecord where
  kind : BitVec 2
  err : BitVec 4
  plen : Nat
  pdata : List Byte
  crc : Word
  deriving DecidableEq, Repr

/-- The record of each response (R84, R85): `kind` 3 is never produced, and `CRC16_COMPUTE` answers `kind` None with
`crc` set. -/
def responseRecord : Response → ResponseRecord
  | .none => { kind := 0, err := 0, plen := 0, pdata := [], crc := 0 }
  | .packet l => { kind := 1, err := 0, plen := l.length, pdata := l, crc := 0 }
  | .error k => { kind := 2, err := errorCode k, plen := 0, pdata := [], crc := 0 }
  | .crc w => { kind := 0, err := 0, plen := 0, pdata := [], crc := w }

end Sys2Proof.Machine
end

