-- ==== Sys2Proof/Machine/Aead.lean ====
section
/-! DEFINITION. The adapter of the external AEAD primitive: `AEAD_SET_KEY`, `AEAD_DECRYPT` and the fixed AAD
(43_aead_adapter.md R180 to R187). -/

namespace Sys2Proof.Machine

/-- The authentication key, read left to right (R181; log 18). -/
def authenticationKey : List Byte :=
  [0x00#8, 0x11#8, 0x22#8, 0x33#8, 0x44#8, 0x55#8, 0x66#8, 0x77#8,
   0x88#8, 0x99#8, 0xAA#8, 0xBB#8, 0xCC#8, 0xDD#8, 0xEE#8, 0xFF#8]

/-- The fixed 17-byte additional authenticated data (R181). -/
def aad : List Byte := 0x30#8 :: authenticationKey

/-- `aead_setkey(key)` (R182): the answer the construction binds, else the free function's (log 5). -/
def aeadSetkey (p : Params) (key : Key) : Bool :=
  match p.aeadKeyTable.lookup key with
  | some ok => ok
  | none => Config.aeadSetKeyFree key

/-- `aead_decrypt(key, nonce, aad, ct, tag)` (R183): a plaintext, or FAIL (`none`). -/
def aeadDecrypt (p : Params) (q : AeadQuery) : Option (List Byte) :=
  match p.aeadTable.lookup q with
  | some r => r
  | none =>
    match Config.aeadDecryptFree q with
    | some v => some v.toList
    | none => none

/-- `AEAD_DECRYPT` with its length check (R183, D32): the fault AEAD_LENGTH for a plaintext that has not the
ciphertext's length. -/
def aeadCall (p : Params) (q : AeadQuery) : Except Fault (Option (List Byte)) :=
  match aeadDecrypt p q with
  | none => .ok none
  | some l => if l.length = q.ct.length then .ok (some l) else .error .aeadLength

/-- `AEAD_SET_KEY` run on its own (R182): no state of the block is written. -/
def execAeadSetKey (key : Key) (s : State) : Out := returnValue s (.bool (aeadSetkey s.params key))

/-- What `AEAD_DECRYPT` returned, as a returned value. -/
def aeadResult : Except Fault (Option (List Byte)) → Except Fault OpResult
  | .ok r => .ok (.plaintext r)
  | .error f => .error f

/-- `AEAD_DECRYPT` run on its own (R183): no state of the block is written. -/
def execAeadDecrypt (key : Key) (nonce aad ct tag : List Byte) (s : State) : Out :=
  returnOrFault s (aeadResult (aeadCall s.params { key := key, nonce := nonce, aad := aad, ct := ct, tag := tag }))

end Sys2Proof.Machine
end

