-- ==== Sys2Proof/Machine/Header.lean ====
section
/-! DEFINITION. The binary header validator and length accountant: the six `HDR_` operations (42_header.md R150 to
R157). -/

namespace Sys2Proof.Machine

/-- `HDR_RESET()` (R151): the bytes of `EN.hdr` stay as they are. -/
def hdrReset (u : EnUnit) : EnUnit := { u with hdrCount := 0 }

/-- `HDR_ADD_BYTE(b)` (R152). A count of 18 is HDR_OVERRUN; so is a count above it, which the register cannot hold
(log 16). -/
def hdrAddByte (b : Byte) (u : EnUnit) : Except Fault EnUnit :=
  if h : u.hdrCount < 18 then .ok { u with hdr := u.hdr.set u.hdrCount b h, hdrCount := u.hdrCount + 1 }
  else .error .hdrOverrun

/-- A read of header fields, which needs all 18 bytes (R154). -/
def hdrField {α : Type} (u : EnUnit) (f : Header → α) : Except Fault α :=
  if hdrComplete u then .ok (f u.hdr) else .error .hdrIncomplete

/-- `HDR_RESET` run on its own. -/
def execHdrReset (s : State) : Out := updateEn s (.ok (hdrReset s.en))

/-- `HDR_ADD_BYTE` run on its own. -/
def execHdrAddByte (b : Byte) (s : State) : Out := updateEn s (hdrAddByte b s.en)

/-- `HDR_IS_COMPLETE` run on its own (R153). -/
def execHdrIsComplete (s : State) : Out := returnValue s (.bool (hdrComplete s.en))

/-- `HDR_TELEGRAM_WITH_TAG_LENGTH` run on its own (R155). -/
def execHdrTelegramWithTagLength (s : State) : Out :=
  returnOrFault s (hdrField s.en fun h => .int (hdrTw s.params h))

/-- `HDR_CHECK_CONSISTENCY` run on its own (R156). -/
def execHdrCheckConsistency (s : State) : Out :=
  returnOrFault s (hdrField s.en fun h => .bool (hdrConsistent s.params h))

/-- `HDR_NONCE` run on its own (R157). -/
def execHdrNonce (s : State) : Out := returnOrFault s (hdrField s.en fun h => .bytes (hdrNonceBytes h))

end Sys2Proof.Machine
end

