-- ==== Sys2Proof/Machine/KeyCodec.lean ====
section
/-! DEFINITION. The hex key codec: `HEX_NIBBLE` and `KEY_DECODE` (41_key_codec.md R130, R131). -/

namespace Sys2Proof.Machine

/-- The 16 key bytes of a 32-character string: characters 2i and 2i+1 give byte i (R131, R65). -/
def keyBytes (s : List Byte) (h : s.length = 32) : Key :=
  Vector.ofFn fun i : Fin 16 => hexPair (digitOf s[2 * i.val]) (digitOf s[2 * i.val + 1])

/-- `KEY_DECODE(s)` (R131): the length is checked first, then the characters. -/
def keyDecode (s : List Byte) : Except ErrorKind Key :=
  if h : s.length = 32 then
    if s.all fun c => (hexval c).isSome then .ok (keyBytes s h) else .error .keyNotHex
  else .error .keyLengthInvalid

/-- What `KEY_DECODE` returned, as a returned value. -/
def keyResult : Except ErrorKind Key → OpResult
  | .ok k => .key k
  | .error e => .keyError e

/-- `HEX_NIBBLE` (R130) run on its own. -/
def execHexNibble (c : Byte) (s : State) : Out := returnValue s (.nibble (hexval c))

/-- `KEY_DECODE` (R131) run on its own: it writes no state. -/
def execKeyDecode (str : List Byte) (s : State) : Out := returnValue s (keyResult (keyDecode str))

end Sys2Proof.Machine
end

