-- ==== Sys2Proof/Machine/EnUnit.lean ====
section
/-! DEFINITION. The encrypted frame synchronizer: `EN_PROCESS_BYTE` with its transitions, `EN_RESET` and `EN_SET_KEY`
(45_encrypted_sync.md R250 to R262). -/

namespace Sys2Proof.Machine

/-- E_SOF (R251): 0xDB in `Idle`; the sentinel is header byte 0. -/
def eSof (u : EnUnit) : EnOut := do
  let u' ← hdrAddByte enSentinel { hdrReset u with ctLen := 0 }
  respondNone { u' with state := .accumulatingHeader }

/-- E_IDLE (R252): another byte in `Idle`. -/
def eIdle (u : EnUnit) : EnOut := respondNone u

/-- E_HDR_BAD (R254). -/
def eHdrBad (u : EnUnit) : EnOut := raiseError .headerCorrupted { u with state := .idle }

/-- E_HDR_OVF (R255). -/
def eHdrOvf (u : EnUnit) : EnOut := raiseError .bufferOverflow { u with state := .idle }

/-- E_HDR_OK (R256). -/
def eHdrOk (u : EnUnit) : EnOut := respondNone { u with state := .accumulatingTelegram }

/-- E_HDR_BYTE (R253): a header byte; on the 18th, R254, R255 or R256 in the same transaction. -/
def eHdrByte (p : Params) (b : Byte) (u : EnUnit) : EnOut := do
  let u' ← hdrAddByte b u
  if hdrComplete u' then do
    let consistent ← hdrField u' (hdrConsistent p)
    let tw ← hdrField u' (hdrTw p)
    if consistent then (if tw > (p.enCap : Int) then eHdrOvf u' else eHdrOk u') else eHdrBad u'
  else respondNone u'

/-- The operands of `AEAD_DECRYPT` at completion (R184): the first `n` bytes of the buffer and the 12 after them. A
negative `n`, which no consistent header gives, is an access outside the buffer (R61; log 16). -/
def enQuery (p : Params) (u : EnUnit) : Except Fault AeadQuery := do
  let tw ← hdrField u (hdrTw p)
  if tw < 12 then .error .bufferBounds
  else do
    let n := (tw - 12).toNat
    let nonce ← hdrField u hdrNonceBytes
    let ct ← memRead p.enCap u.ct 0 n
    let tag ← memRead p.enCap u.ct n 12
    return { key := u.key, nonce := nonce, aad := aad, ct := ct, tag := tag }

/-- E_CT_DONE (R258): the frame is complete. The unit is in `Idle` whatever follows. -/
def eCtDone (p : Params) (u : EnUnit) : EnOut :=
  let u' := { u with state := .idle }
  if u'.keyLoaded = false then .error .keyNotLoaded
  else if aeadSetkey p u'.key = false then raiseError .failedToSetEncryptionKey u'
  else do
    let q ← enQuery p u'
    let r ← aeadCall p q
    match r with
    | none => raiseError .decryptionFailed u'
    | some plain => do
      let pt ← memWrite p.enCap u'.pt 0 plain
      let out ← memRead p.enCap pt 0 plain.length
      respondPacket out { u' with pt := pt }

/-- E_CT_BYTE (R257): a ciphertext or tag byte; on the last, R258 in the same transaction. -/
def eCtByte (p : Params) (b : Byte) (u : EnUnit) : EnOut := do
  let ct ← memWrite p.enCap u.ct u.ctLen [b]
  let u' := { u with ct := ct, ctLen := u.ctLen + 1 }
  let tw ← hdrField u' (hdrTw p)
  if (u'.ctLen : Int) < tw then respondNone u' else eCtDone p u'

/-- `EN_PROCESS_BYTE(b)` on the unit (R250). -/
def enStep (p : Params) (b : Byte) (u : EnUnit) : EnOut :=
  match u.state with
  | .idle => if enIsSof b then eSof u else eIdle u
  | .accumulatingHeader => eHdrByte p b u
  | .accumulatingTelegram => eCtByte p b u
  | .reserved => .error .unreachableState

/-- `EN_RESET()` on the unit (R261): key, key flag and buffer bytes are unchanged. -/
def enReset (u : EnUnit) : EnUnit := { u with state := .idle, hdrCount := 0, ctLen := 0 }

/-- `EN_SET_KEY(s)` on the unit (R262): a failed call changes nothing (D10). -/
def enSetKey (str : List Byte) (u : EnUnit) : EnOut :=
  match keyDecode str with
  | .error k => raiseError k u
  | .ok key => respondNone { u with key := key, keyLoaded := true }

/-- `EN_PROCESS_BYTE` (R250). -/
def execEnProcessByte (b : Byte) (s : State) : Out := onEn s (enStep s.params b s.en)

/-- `EN_RESET` (R261). -/
def execEnReset (s : State) : Out := onEn s (respondNone (enReset s.en))

/-- `EN_SET_KEY` (R262). -/
def execEnSetKey (str : List Byte) (s : State) : Out := onEn s (enSetKey str s.en)

end Sys2Proof.Machine
end

