-- ==== Sys2Proof/Machine/Crc16.lean ====
section
/-! DEFINITION. The CRC16 engine: `CRC16_STEP` and `CRC16_COMPUTE` (40_crc16.md R110, R111). -/

namespace Sys2Proof.Machine

/-- The reflected polynomial (R7, R110). -/
def crcPoly : Word := 0xA001#16

/-- One of the "8 shift/XOR steps per byte" (R110). -/
def crcShift (c : Word) : Word := if c.getLsbD 0 then (c >>> 1) ^^^ crcPoly else c >>> 1

/-- Repeat a shift step. -/
def crcShifts : Nat → Word → Word
  | 0, c => c
  | n + 1, c => crcShifts n (crcShift c)

/-- `CRC16_STEP(crc, b)` (R110): the byte enters at bits 7:0, then eight shift steps. -/
def crc16Step (crc : Word) (b : Byte) : Word := crcShifts 8 (crc ^^^ b.setWidth 16)

/-- The fold of a byte string from a running value (R111, R112). -/
def crc16From (crc : Word) (s : List Byte) : Word := s.foldl crc16Step crc

/-- `crc16(s)` (R111): init 0, bytes in order, no final XOR. -/
def crc16 (s : List Byte) : Word := crc16From 0x0000#16 s

/-- `CRC16_COMPUTE` (R111): a pure function of its operand. -/
def execCrc16Compute (str : List Byte) (s : State) : Out := respondOnly s (.crc (crc16 str))

/-- `CRC16_STEP` (R110) run on its own. -/
def execCrc16Step (crc : Word) (b : Byte) (s : State) : Out := returnValue s (.word (crc16Step crc b))

end Sys2Proof.Machine
end

