-- ==== Sys2Proof/Machine/PtUnit.lean ====
section
/-! DEFINITION. The plaintext frame synchronizer: `PT_PROCESS_BYTE` with its ten transitions, and `PT_RESET`
(44_plaintext_sync.md R210 to R221). Each transition is a definition of its own; the dispatcher `ptStep` tests the
conditions in the order of R210. -/

namespace Sys2Proof.Machine

/-- T_SOF (R211): the start sentinel, in any state. -/
def tSof (p : Params) (u : PtUnit) : PtOut := do
  let buf ← memWrite p.ptCap u.buf 0 [slash]
  let u' := { u with buf := buf, len := 1, state := .inFrame }
  match u.state with
  | .inFrame | .inCrc => raiseError .packetStartSymbolInPacket u'
  | .idle | .reserved => respondNone u'

/-- T_OVF (R212): a byte that is not `'/'` meets a full buffer, in any state. -/
def tOvf (u : PtUnit) : PtOut := raiseError .bufferOverflow { u with state := .idle, len := 0 }

/-- T_IDLE (R213): any other byte in `Idle`. -/
def tIdle (u : PtUnit) : PtOut := respondNone u

/-- `MemWrite(PT.buf, PT.len, 1, b); PT.len <- PT.len + 1`, the append of R214 to R216. -/
def ptAppend (p : Params) (b : Byte) (u : PtUnit) : Except Fault PtUnit := do
  let buf ← memWrite p.ptCap u.buf u.len [b]
  return { u with buf := buf, len := u.len + 1 }

/-- `MemRead(PT.buf, 0, PT.len)`, the frame collected so far. -/
def ptFrame (p : Params) (u : PtUnit) : Except Fault (List Byte) := memRead p.ptCap u.buf 0 u.len

/-- `PT.state <- Idle` and, only under `PT_CLEAR_ON_IDLE`, `PT.len <- 0` (R215, R217, R219, R220; D7). -/
def ptToIdle (p : Params) (u : PtUnit) : PtUnit :=
  { u with state := .idle, len := if p.ptClearOnIdle then 0 else u.len }

/-- T_DATA (R214): a body byte. -/
def tData (p : Params) (b : Byte) (u : PtUnit) : PtOut := do
  let u' ← ptAppend p b u
  respondNone u'

/-- T_EOF_NOCRC (R215): the end sentinel with CRC checking disabled. -/
def tEofNoCrc (p : Params) (u : PtUnit) : PtOut := do
  let u' ← ptAppend p bang u
  let bytes ← ptFrame p u'
  respondPacket bytes (ptToIdle p u')

/-- T_EOF_CRC (R216): the end sentinel with CRC checking enabled. -/
def tEofCrc (p : Params) (u : PtUnit) : PtOut := do
  let u' ← ptAppend p bang u
  respondNone { u' with crcAcc := 0x0000#16, crcNibbles := 0, state := .inCrc }

/-- T_CRC_BAD (R217): a byte that is no hex digit in `InCrc`. -/
def tCrcBad (p : Params) (u : PtUnit) : PtOut := raiseError .incorrectCrcCharacter (ptToIdle p u)

/-- T_CRC_OK (R219): the fourth digit, and the CRC matches. -/
def tCrcOk (p : Params) (u : PtUnit) : PtOut := do
  let bytes ← ptFrame p u
  respondPacket bytes (ptToIdle p u)

/-- T_CRC_MISMATCH (R220): the fourth digit, and the CRC differs. -/
def tCrcMismatch (p : Params) (u : PtUnit) : PtOut := raiseError .crcMismatch (ptToIdle p u)

/-- T_CRC_DIGIT (R218): a hex digit in `InCrc`; on the fourth, R219 or R220 in the same transaction. -/
def tCrcDigit (p : Params) (d : Nibble) (u : PtUnit) : PtOut :=
  let u' := { u with crcAcc := foldNibble u.crcAcc d, crcNibbles := u.crcNibbles + 1 }
  if u'.crcNibbles < 4 then respondNone u'
  else do
    let bytes ← ptFrame p u'
    if u'.crcAcc = crc16 bytes then tCrcOk p u' else tCrcMismatch p u'

/-- The dispatch of R210 for a state register that holds a state: `'/'` first, a full buffer second, the state last. -/
def ptDispatch (p : Params) (b : Byte) (u : PtUnit) : PtOut :=
  if b = slash then tSof p u
  else if ptFull p u then tOvf u
  else
    match u.state with
    | .idle => tIdle u
    | .inFrame => if b ≠ bang then tData p b u else if p.ptCheckCrc then tEofCrc p u else tEofNoCrc p u
    | .inCrc =>
      match hexval b with
      | none => tCrcBad p u
      | some d => tCrcDigit p d u
    | .reserved => .error .unreachableState

/-- `PT_PROCESS_BYTE(b)` on the unit (R210): encoding 3 of the state register is found first. -/
def ptStep (p : Params) (b : Byte) (u : PtUnit) : PtOut :=
  match u.state with
  | .reserved => .error .unreachableState
  | .idle | .inFrame | .inCrc => ptDispatch p b u

/-- `PT_RESET()` on the unit (R221): the bytes of the buffer keep their values. -/
def ptReset (u : PtUnit) : PtUnit := { u with state := .idle, len := 0, crcAcc := 0x0000#16, crcNibbles := 0 }

/-- `PT_PROCESS_BYTE` (R210). -/
def execPtProcessByte (b : Byte) (s : State) : Out := onPt s (ptStep s.params b s.pt)

/-- `PT_RESET` (R221). -/
def execPtReset (s : State) : Out := onPt s (respondNone (ptReset s.pt))

end Sys2Proof.Machine
end

