-- ==== Sys2Proof/Machine/Dispatch.lean ====
section
/-! DEFINITION. One arm per constructor of `Instr`: the meaning of each instruction. -/

namespace Sys2Proof.Machine

def exec (i : Instr) (s : State) : Host.Outcome State Fault Refusal :=
  match i with
  | .ptProcessByte b => Sys2Proof.Machine.execPtProcessByte b s
  | .ptReset => Sys2Proof.Machine.execPtReset s
  | .enProcessByte b => Sys2Proof.Machine.execEnProcessByte b s
  | .enReset => Sys2Proof.Machine.execEnReset s
  | .enSetKey str => Sys2Proof.Machine.execEnSetKey str s
  | .crc16Compute str => Sys2Proof.Machine.execCrc16Compute str s
  | .crc16Step crc b => Sys2Proof.Machine.execCrc16Step crc b s
  | .hexNibble c => Sys2Proof.Machine.execHexNibble c s
  | .keyDecode str => Sys2Proof.Machine.execKeyDecode str s
  | .hdrReset => Sys2Proof.Machine.execHdrReset s
  | .hdrAddByte b => Sys2Proof.Machine.execHdrAddByte b s
  | .hdrIsComplete => Sys2Proof.Machine.execHdrIsComplete s
  | .hdrTelegramWithTagLength => Sys2Proof.Machine.execHdrTelegramWithTagLength s
  | .hdrCheckConsistency => Sys2Proof.Machine.execHdrCheckConsistency s
  | .hdrNonce => Sys2Proof.Machine.execHdrNonce s
  | .aeadSetKey key => Sys2Proof.Machine.execAeadSetKey key s
  | .aeadDecrypt key nonce aad ct tag => Sys2Proof.Machine.execAeadDecrypt key nonce aad ct tag s

end Sys2Proof.Machine
end

