-- ==== Sys2Proof/Machine/Step.lean ====
section
/-! DEFINITION. One step: the block takes the next pending transaction, decodes it and runs it (30_encoding.md R80).
With nothing pending the block holds its state (60_exceptions.md R313; log 2). -/

namespace Sys2Proof.Machine

/-- One step of the block. -/
def step (s : State) : Host.Outcome State Fault Refusal :=
  match fetch s with
  | none => .next s
  | some (t, s') =>
    match decodeFetched s' t with
    | .error r => .refused r
    | .ok i => exec i s'

/-- `s` with the transaction of a table word as the next one the block takes (log 3). -/
def State.withFetchWord (s : State) (_nbits w : Nat) : State := placeNext s (tableTransaction w)

end Sys2Proof.Machine
end

