-- ==== Sys2Proof/Machine/Assembly.lean ====
section
/-! DEFINITION. The textual form of transaction sequences (30_encoding.md R95) and the pseudo-instructions that expand to
several transactions (R96). Notation only: it has no effect on the block (D26). What the grammar leaves open is fixed
here as log 22 says. -/

namespace Sys2Proof.Machine

/-- One line of R95 or R96. -/
inductive AsmLine where
  /-- An empty line, or a comment. -/
  | blank
  | ptByte (b : Byte)
  | ptReset
  | enByte (b : Byte)
  | enReset
  | enSetkey (s : List Byte)
  | crc16 (s : List Byte)
  | ptStr (s : List Byte)
  | ptHex (s : List Byte)
  | enStr (s : List Byte)
  | enHex (s : List Byte)
  deriving DecidableEq, Repr

/-- `cmd = 0x000 OR B` (R95). -/
def asmPtByte (b : Byte) : Transaction := ⟨0x000#12 ||| b.setWidth 12, none⟩

/-- `cmd = 0x200 OR B` (R95). -/
def asmEnByte (b : Byte) : Transaction := ⟨0x200#12 ||| b.setWidth 12, none⟩

/-- The transactions of a line: one for a line of R95, one a byte for a pseudo-instruction of R96. -/
def asmExpand : AsmLine → List Transaction
  | .blank => []
  | .ptByte b => [asmPtByte b]
  | .ptReset => [⟨0x100#12, none⟩]
  | .enByte b => [asmEnByte b]
  | .enReset => [⟨0x300#12, none⟩]
  | .enSetkey s => [⟨0x400#12, some s⟩]
  | .crc16 s => [⟨0x500#12, some s⟩]
  | .ptStr s => s.map asmPtByte
  | .ptHex s => s.map asmPtByte
  | .enStr s => s.map asmEnByte
  | .enHex s => s.map asmEnByte

/-! ### Reading a line of text -/

/-- The ASCII code of a character (R10); a character outside ASCII has none. -/
def asmCharByte (c : Char) : Option Byte := if c.toNat < 128 then some (BitVec.ofNat 8 c.toNat) else none

/-- The value of a hex digit character. -/
def asmDigit (c : Char) : Option Nibble :=
  match asmCharByte c with
  | some b => hexval b
  | none => none

/-- `HH`. -/
def asmHexPair (a b : Char) : Option Byte :=
  match asmDigit a, asmDigit b with
  | some x, some y => some (hexPair x y)
  | _, _ => none

/-- Nothing but spaces up to the end of the line or a comment. -/
def asmAtEnd : List Char → Bool
  | [] => true
  | ';' :: _ => true
  | ' ' :: l => asmAtEnd l
  | _ => false

/-- `HH HH ...`, to the end of the line or a comment. -/
def asmHexRun : List Char → Option (List Byte)
  | [] => some []
  | ';' :: _ => some []
  | ' ' :: l => asmHexRun l
  | [_] => none
  | a :: b :: l =>
    match asmHexPair a b, asmHexRun l with
    | some x, some r => some (x :: r)
    | _, _ => none

/-- The characters of a string after its opening quote: the escapes of R10, and the rest of the line. -/
def asmQuoted : List Char → Option (List Byte × List Char)
  | [] => none
  | '"' :: l => some ([], l)
  | ['\\'] => none
  | '\\' :: c :: l =>
    match (if c = 'r' then some 0x0D#8 else if c = 'n' then some 0x0A#8 else none), asmQuoted l with
    | some b, some (r, rest) => some (b :: r, rest)
    | _, _ => none
  | c :: l =>
    match asmCharByte c, asmQuoted l with
    | some b, some (r, rest) => some (b :: r, rest)
    | _, _ => none

/-- `"S"`, and nothing after it. -/
def asmString : List Char → Option (List Byte)
  | '"' :: l =>
    match asmQuoted l with
    | some (s, rest) => if asmAtEnd rest then some s else none
    | none => none
  | _ => none

/-- `"S"`, or its other spelling `hex:HH HH ...` (R95). -/
def asmStringOrHex : List Char → Option (List Byte)
  | 'h' :: 'e' :: 'x' :: ':' :: l => asmHexRun l
  | l => asmString l

/-- `0xHH` or `'c'`, and nothing after it (R95). -/
def asmByte : List Char → Option Byte
  | '0' :: 'x' :: a :: b :: l => if asmAtEnd l then asmHexPair a b else none
  | '\'' :: c :: '\'' :: l => if asmAtEnd l then asmCharByte c else none
  | _ => none

/-- Drop leading spaces. -/
def asmSkip : List Char → List Char
  | ' ' :: l => asmSkip l
  | l => l

/-- The rest of the line after a word. -/
def asmAfter : List Char → List Char → Option (List Char)
  | [], l => some l
  | _ :: _, [] => none
  | c :: w, d :: l => if c = d then asmAfter w l else none

/-- The operand after a word and at least one space. -/
def asmOperand (w l : List Char) : Option (List Char) :=
  match asmAfter w l with
  | some (' ' :: rest) => some (asmSkip rest)
  | _ => none

/-- A line made of a word alone. -/
def asmAlone (w l : List Char) : Bool :=
  match asmAfter w l with
  | some rest => asmAtEnd rest
  | none => false

/-- The lines with an operand: word, operand reader, line. R95 allows the spelling `hex:HH HH ...` for `"S"` in general and
R96 does not repeat it. DESIGN CHOICE (log 22): it holds for the `"S"` of `pt.str` and `en.str` too. -/
def asmWithOperand (l : List Char) : Option AsmLine :=
  match asmOperand ['p', 't', '.', 'b', 'y', 't', 'e'] l with
  | some o => (asmByte o).map .ptByte
  | none =>
  match asmOperand ['e', 'n', '.', 'b', 'y', 't', 'e'] l with
  | some o => (asmByte o).map .enByte
  | none =>
  match asmOperand ['e', 'n', '.', 's', 'e', 't', 'k', 'e', 'y'] l with
  | some o => (asmStringOrHex o).map .enSetkey
  | none =>
  match asmOperand ['c', 'r', 'c', '1', '6'] l with
  | some o => (asmStringOrHex o).map .crc16
  | none =>
  match asmOperand ['p', 't', '.', 's', 't', 'r'] l with
  | some o => (asmStringOrHex o).map .ptStr
  | none =>
  match asmOperand ['p', 't', '.', 'h', 'e', 'x'] l with
  | some o => (asmHexRun o).map .ptHex
  | none =>
  match asmOperand ['e', 'n', '.', 's', 't', 'r'] l with
  | some o => (asmStringOrHex o).map .enStr
  | none =>
  match asmOperand ['e', 'n', '.', 'h', 'e', 'x'] l with
  | some o => (asmHexRun o).map .enHex
  | none => none

/-- Read one line; `none` where it is none of R95 and R96. -/
def asmParse (l : List Char) : Option AsmLine :=
  let l := asmSkip l
  if asmAtEnd l then some .blank
  else if asmAlone ['p', 't', '.', 'r', 'e', 's', 'e', 't'] l then some .ptReset
  else if asmAlone ['e', 'n', '.', 'r', 'e', 's', 'e', 't'] l then some .enReset
  else asmWithOperand l

/-- The transactions of a sequence of lines (R95: one transaction a line). -/
def assemble : List (List Char) → Option (List Transaction)
  | [] => some []
  | l :: rest =>
    match asmParse l, assemble rest with
    | some a, some ts => some (asmExpand a ++ ts)
    | _, _ => none

end Sys2Proof.Machine
end

