-- ==== Sys2Proof/Safety.lean ====
section
/-! DEFINITION. What claims about the block are stated in: runs and their observations (70_reset_and_hazards.md R352),
and the invariants of the two units (10_state.md R34, 44_plaintext_sync.md R222, R226, 45_encrypted_sync.md R263). -/

namespace Sys2Proof.Machine

/-- What a run gives (R352): the responses in issue order and the state after the last transaction; a model fault,
from which on the run is faulted; or a refusal, which refuses the run as a whole. -/
inductive RunResult where
  | done (responses : List Response) (s : State)
  | faulted (f : Fault)
  | refused (r : Refusal)
  deriving DecidableEq, Repr

/-- One transaction of a run: the host issues it to a block with nothing pending. -/
def transact (s : State) (t : Transaction) : Out := step { s with pending := [t] }

/-- A run of the transactions from a state (R352). -/
def run : List Transaction → State → RunResult
  | [], s => .done [] s
  | t :: ts, s =>
    match transact s t with
    | .fault f => .faulted f
    | .refused r => .refused r
    | .next s' =>
      match run ts s' with
      | .done rs s'' => .done (s'.resp :: rs) s''
      | .faulted f => .faulted f
      | .refused r => .refused r

/-- The transactions of a byte string fed to the PT unit. -/
def ptFeed (l : List Byte) : List Transaction := l.map fun b => ⟨cmdWord 0x0#4 b, none⟩

/-- The transactions of a byte string fed to the EN unit. -/
def enFeed (l : List Byte) : List Transaction := l.map fun b => ⟨cmdWord 0x2#4 b, none⟩

/-- The transactions of the PT unit. -/
def isPtTransaction (t : Transaction) : Bool :=
  decide (t.cmd.extractLsb' 8 4 = 0x0#4 ∨ t.cmd.extractLsb' 8 4 = 0x1#4)

/-- The `AEAD_DECRYPT` call of a complete frame whose bytes after the header are `l` (R181, R184): the last 12 bytes are
the tag, the key is the one loaded at completion (R71). -/
def frameQuery (u : EnUnit) (l : List Byte) : AeadQuery :=
  { key := u.key
    nonce := (u.hdr.toList.drop 2).take 8 ++ u.hdr.toList.drop 14
    aad := [0x30#8, 0x00#8, 0x11#8, 0x22#8, 0x33#8, 0x44#8, 0x55#8, 0x66#8, 0x77#8, 0x88#8, 0x99#8, 0xAA#8, 0xBB#8,
      0xCC#8, 0xDD#8, 0xEE#8, 0xFF#8]
    ct := l.take (l.length - 12)
    tag := l.drop (l.length - 12) }

/-- A legal construction: `PT_CAP ≥ 1` (D25). -/
abbrev paramsLegal (p : Params) : Prop := 1 ≤ p.ptCap

/-- Every answer of `aead_decrypt` that the construction binds has the ciphertext's length (D32). The free function is
so by its type. -/
def oracleTyped (p : Params) : Bool :=
  p.aeadTable.all fun e =>
    match e.2 with
    | none => true
    | some l => decide (l.length = e.1.ct.length)

/-- A buffer of capacity `cap` in canonical form whose first `len` bytes have been written. -/
abbrev bufInv (cap : Nat) (m : Buf) (len : Nat) : Prop :=
  bufWf m = true ∧ bufWithin cap m = true ∧ len ≤ cap ∧ ∀ i < len, (bufRead m i).isSome = true

/-- R222 (a) and (b): an open frame starts with `'/'` and holds no other. -/
abbrev ptFrameOpen (u : PtUnit) : Prop :=
  1 ≤ u.len ∧ bufRead u.buf 0 = some slash ∧ ∀ i < u.len, 1 ≤ i → bufRead u.buf i ≠ some slash

/-- R226: what `Idle` says of the buffer length. -/
abbrev ptIdleInv (p : Params) (u : PtUnit) : Prop :=
  (p.ptClearOnIdle = true → u.len = 0) ∧ (p.ptCheckCrc = true → u.len < p.ptCap)

/-- R222 (a), (b), (c): what `InFrame` says of the buffer. -/
abbrev ptInFrameInv (u : PtUnit) : Prop := ptFrameOpen u ∧ ∀ i < u.len, bufRead u.buf i ≠ some bang

/-- R222 (a), (b), (d), (e): what `InCrc` says. -/
abbrev ptInCrcInv (p : Params) (u : PtUnit) : Prop :=
  ptFrameOpen u ∧ 2 ≤ u.len ∧ bufRead u.buf (u.len - 1) = some bang ∧
    (∀ i < u.len - 1, bufRead u.buf i ≠ some bang) ∧ u.crcNibbles ≤ 3 ∧ p.ptCheckCrc = true

/-- R222 for each state, and R226 for `Idle`. -/
def ptStateInv (p : Params) (u : PtUnit) : Bool :=
  match u.state with
  | .idle => decide (ptIdleInv p u)
  | .inFrame => decide (ptInFrameInv u)
  | .inCrc => decide (ptInCrcInv p u)
  | .reserved => false

/-- The PT unit's invariant: R34, R26, R222, R226. -/
abbrev PtInv (p : Params) (u : PtUnit) : Prop :=
  paramsLegal p ∧ bufInv p.ptCap u.buf u.len ∧ u.crcNibbles ≤ 4 ∧ ptStateInv p u = true

/-- R263: what `AccumulatingHeader` says. -/
abbrev enHeaderInv (u : EnUnit) : Prop :=
  1 ≤ u.hdrCount ∧ u.hdrCount ≤ 17 ∧ u.hdr[0] = enSentinel ∧ u.ctLen = 0

/-- R263: what `AccumulatingTelegram` says. -/
abbrev enTelegramInv (p : Params) (u : EnUnit) : Prop :=
  u.hdrCount = 18 ∧ hdrConsistent p u.hdr = true ∧ 26 ≤ hdrTw p u.hdr ∧ hdrTw p u.hdr ≤ p.enCap ∧
    (u.ctLen : Int) < hdrTw p u.hdr

/-- R263 for each state. -/
def enStateInv (p : Params) (u : EnUnit) : Bool :=
  match u.state with
  | .idle => true
  | .accumulatingHeader => decide (enHeaderInv u)
  | .accumulatingTelegram => decide (enTelegramInv p u)
  | .reserved => false

/-- The EN unit's invariant: R34, R29, R263, and the plaintext buffer's form (R31). -/
abbrev EnInv (p : Params) (u : EnUnit) : Prop :=
  bufInv p.enCap u.ct u.ctLen ∧ bufInv p.enCap u.pt 0 ∧ u.hdrCount ≤ 18 ∧ enStateInv p u = true

/-- The invariant of the block. -/
abbrev State.Inv (s : State) : Prop := PtInv s.params s.pt ∧ EnInv s.params s.en

/-- A step is safe: it stops with no model fault. -/
abbrev safeStep (s : State) : Prop := ∀ f, step s ≠ .fault f

end Sys2Proof.Machine
end

