-- ==== Sys2Proof/Certificates/Slice0/Obligations.lean ====
section
/-! DEFINITION. The statements for the provers, from the spec's numbered rules. -/

open Sys2Proof Sys2Proof.Machine

/-! ### Encoding (30_encoding.md) -/

/-- R80, R81: a well-formed host operation's transaction decodes to it, with every operand at every value. -/
def Obligations.DecodeEncodeRoundTrip : Prop :=
  ∀ (maxStr : Option Nat) (i : Instr) (t : Transaction),
    i.wellFormed maxStr = true → encode i = some t → decode maxStr t = .ok i

/-- R80, R81, R83: what the decoder accepts is a well-formed host operation, and its transaction is the one read, so no
bit of the command word and no byte of the string is dropped. -/
def Obligations.DecodedTransactionIsEncoding : Prop :=
  ∀ (maxStr : Option Nat) (t : Transaction) (i : Instr),
    decode maxStr t = .ok i → i.isHost = true ∧ i.wellFormed maxStr = true ∧ encode i = some t

/-- R81, R95: command words of 95_test_vectors.md and of the table decode to the operations they stand for. -/
def Obligations.SampleWordsDecode : Prop :=
  decode none ⟨0x02F#12, none⟩ = .ok (.ptProcessByte 0x2F#8) ∧
  decode none ⟨0x100#12, none⟩ = .ok .ptReset ∧
  decode none ⟨0x2DB#12, none⟩ = .ok (.enProcessByte 0xDB#8) ∧
  decode none ⟨0x300#12, none⟩ = .ok .enReset ∧
  decode none ⟨0x400#12, some [0x30#8, 0x30#8, 0x30#8, 0x31#8]⟩ =
    .ok (.enSetKey [0x30#8, 0x30#8, 0x30#8, 0x31#8]) ∧
  decode none ⟨0x500#12, some [0x2F#8, 0x61#8, 0x21#8]⟩ = .ok (.crc16Compute [0x2F#8, 0x61#8, 0x21#8])

/-- R82, R94: the byte operations take any data byte; every other operation refuses a nonzero one with NONZERO_DATA. That
this refusal is the one reported where a string is also missing, too long or out of place is the model's choice
(log 11). -/
def Obligations.DataByteOnlyForByteOperations : Prop :=
  ∀ (maxStr : Option Nat) (cmd : BitVec 12) (str : Option (List Byte)),
    (cmd.extractLsb' 8 4 = 0x0#4 → decode maxStr ⟨cmd, none⟩ = .ok (.ptProcessByte (cmd.extractLsb' 0 8))) ∧
    (cmd.extractLsb' 8 4 = 0x2#4 → decode maxStr ⟨cmd, none⟩ = .ok (.enProcessByte (cmd.extractLsb' 0 8))) ∧
    (cmd.extractLsb' 8 4 ∈ [0x1#4, 0x3#4, 0x4#4, 0x5#4] → cmd.extractLsb' 0 8 ≠ 0x00#8 →
      decode maxStr ⟨cmd, str⟩ = .error .nonzeroData)

/-- R83, R94: a string is taken exactly by the two string operations, up to `MAX_STR`; the refusals by name. The data
byte is the one the operation allows: where several refusals apply the order is the model's choice (log 11). -/
def Obligations.StringOperandRefusals : Prop :=
  ∀ (maxStr : Option Nat) (cmd : BitVec 12) (s : List Byte),
    (cmd.extractLsb' 8 4 ∈ [0x0#4, 0x2#4] → decode maxStr ⟨cmd, some s⟩ = .error .unexpectedOperand) ∧
    (cmd ∈ [0x100#12, 0x300#12] → decode maxStr ⟨cmd, some s⟩ = .error .unexpectedOperand) ∧
    (cmd ∈ [0x400#12, 0x500#12] → decode maxStr ⟨cmd, none⟩ = .error .missingOperand) ∧
    (cmd ∈ [0x400#12, 0x500#12] → (∃ m, maxStr = some m ∧ m < s.length) →
      decode maxStr ⟨cmd, some s⟩ = .error .stringTooLong) ∧
    ((∀ m, maxStr = some m → s.length ≤ m) →
      decode maxStr ⟨0x400#12, some s⟩ = .ok (.enSetKey s) ∧
      decode maxStr ⟨0x500#12, some s⟩ = .ok (.crc16Compute s))

/-- R94: operation codes 0x6 to 0xF are refused with RESERVED_OP. -/
def Obligations.ReservedOperationRefused : Prop :=
  ∀ (maxStr : Option Nat) (t : Transaction),
    6 ≤ (t.cmd.extractLsb' 8 4).toNat → decode maxStr t = .error .reservedOp

/-- R80, R94: a step takes the next pending transaction; what it decodes to is run on the state without it, and a
transaction the decoder refuses is refused. The list of pending transactions is the model's own (log 2). -/
def Obligations.StepRunsDecodedInstruction : Prop :=
  ∀ (s : State) (t : Transaction) (rest : List Transaction), s.pending = t :: rest →
    (∀ i, decode s.params.maxStr t = .ok i → step s = exec i { s with pending := rest }) ∧
    (∀ r, decode s.params.maxStr t = .error r → step s = .refused r)

/-- R313, R306: with no transaction pending the block holds its state (log 2: what a step is then is the model's
choice). -/
def Obligations.IdleBlockHoldsState : Prop :=
  ∀ s : State, s.pending = [] → step s = .next s

/-- R74: at transaction level no step refuses with CONCURRENT_ACCESS, and every instruction has a meaning. -/
def Obligations.NoConcurrentAccessRefusal : Prop :=
  ∀ s : State, step s ≠ .refused .concurrentAccess ∧ ∀ m, step s ≠ .refused (.notModelled m)

/-! ### Construction, invariants, safety (10_state.md, 70_reset_and_hazards.md, 60_exceptions.md) -/

/-- R340: what construction binds and leaves. The unspecified bytes are not spoken of. -/
def Obligations.ConstructionLeavesStatedValues : Prop :=
  ∀ p : Params,
    (State.construct p).params = p ∧
    (State.construct p).pt.state = .idle ∧ (State.construct p).en.state = .idle ∧
    (State.construct p).pt.len = 0 ∧ (State.construct p).pt.crcNibbles = 0 ∧
    (State.construct p).en.hdrCount = 0 ∧ (State.construct p).en.ctLen = 0 ∧
    (State.construct p).pt.crcAcc = 0x0000#16 ∧ (State.construct p).en.keyLoaded = false

/-- The invariant holds at every legal construction, and at `State.reset` (whose parameters are log 4's choice). -/
def Obligations.ConstructionMeetsInvariant : Prop :=
  (∀ p : Params, 1 ≤ p.ptCap → (State.construct p).Inv) ∧ State.reset.Inv

/-- R34, R222, R226, R263: every step keeps the invariant, from every state that has it. -/
def Obligations.StepKeepsInvariant : Prop :=
  ∀ s t : State, s.Inv → step s = .next t → t.Inv

/-- R307's column "reachable by the rules?": under the invariant a host transaction completes, or meets
KEY_NOT_LOADED with no key loaded, or AEAD_LENGTH with an ill-typed oracle. -/
def Obligations.HostTransactionCompletes : Prop :=
  ∀ (s : State) (i : Instr), s.Inv → i.isHost = true →
    (∃ t, exec i s = .next t) ∨
    (exec i s = .fault .keyNotLoaded ∧ s.en.keyLoaded = false) ∨
    (exec i s = .fault .aeadLength ∧ oracleTyped s.params = false)

/-- R73: no instruction and no step changes a construction parameter. -/
def Obligations.ParametersNeverChange : Prop :=
  (∀ (i : Instr) (s t : State), exec i s = .next t → t.params = s.params) ∧
  (∀ s t : State, step s = .next t → t.params = s.params)

/-- R22, R28: a process-byte operation that finds encoding 3 in its state register faults. -/
def Obligations.StateEncodingThreeFaults : Prop :=
  ∀ (s : State) (b : Byte),
    (s.pt.state = .reserved → exec (.ptProcessByte b) s = .fault .unreachableState) ∧
    (s.en.state = .reserved → exec (.enProcessByte b) s = .fault .unreachableState)

/-! ### CRC16 engine (40_crc16.md) -/

/-- R110: the byte enters at bits 7:0, then eight shift steps; nothing else changes, and no command word encodes it. -/
def Obligations.CrcStepReturnsEightShifts : Prop :=
  (∀ (crc : Word) (b : Byte) (s : State),
    exec (.crc16Step crc b) s =
      .next { s with ret := .word (Nat.repeat (fun c : Word => if c.getLsbD 0 then (c >>> 1) ^^^ 0xA001#16 else c >>> 1) 8
        (crc ^^^ b.setWidth 16)) }) ∧
  crc16Step 0x0000#16 0x00#8 = 0x0000#16 ∧ crc16Step 0x0000#16 0x80#8 = 0xA001#16 ∧
  crc16Step 0x0000#16 0x2F#8 = 0xDC41#16 ∧ ∀ (crc : Word) (b : Byte), encode (.crc16Step crc b) = none

/-- R111: the command word, the response as the fold from 0x0000 with no unit touched; the concatenation law, zero
bytes, and the two values the rule gives. -/
def Obligations.CrcComputeAnswersFold : Prop :=
  (∀ (str : List Byte) (s : State),
    encode (.crc16Compute str) = some ⟨0x500#12, some str⟩ ∧
    exec (.crc16Compute str) s = .next { s with resp := .crc (str.foldl crc16Step 0x0000#16) }) ∧
  (∀ a b : List Byte, crc16 (a ++ b) = b.foldl crc16Step (crc16 a)) ∧
  (∀ n : Nat, crc16 (List.replicate n 0x00#8) = 0x0000#16) ∧
  crc16 [0x31#8, 0x32#8, 0x33#8, 0x34#8, 0x35#8, 0x36#8, 0x37#8, 0x38#8, 0x39#8] = 0xBB3D#16 ∧
  crc16 [0x2F#8, 0x73#8, 0x6F#8, 0x6D#8, 0x65#8, 0x20#8, 0x21#8] = 0xA3D4#16

/-- R112: a running value updated by `CRC16_STEP` on every appended byte stays the CRC of the buffer. -/
def Obligations.RunningCrcFollowsBuffer : Prop :=
  ∀ (p : Params) (u v : PtUnit) (b : Byte) (l : List Byte),
    bufWf u.buf = true → ptFrame p u = .ok l → ptAppend p b u = .ok v →
    ∃ l', ptFrame p v = .ok l' ∧ crc16 l' = crc16Step (crc16 l) b

/-! ### Hex key codec (41_key_codec.md) -/

/-- R130: the value of every byte, in the three ranges and outside them; no state but the returned value changes. -/
def Obligations.HexNibbleValueOfEveryByte : Prop :=
  ∀ (c : Byte) (s : State), encode (.hexNibble c) = none ∧
    ∃ r : Option Nibble, exec (.hexNibble c) s = .next { s with ret := .nibble r } ∧
    (0x30 ≤ c.toNat ∧ c.toNat ≤ 0x39 → ∃ d, r = some d ∧ d.toNat = c.toNat - 0x30) ∧
    (0x41 ≤ c.toNat ∧ c.toNat ≤ 0x46 → ∃ d, r = some d ∧ d.toNat = c.toNat - 0x41 + 10) ∧
    (0x61 ≤ c.toNat ∧ c.toNat ≤ 0x66 → ∃ d, r = some d ∧ d.toNat = c.toNat - 0x61 + 10) ∧
    (c.toNat < 0x30 ∨ (0x39 < c.toNat ∧ c.toNat < 0x41) ∨ (0x46 < c.toNat ∧ c.toNat < 0x61) ∨ 0x66 < c.toNat →
      r = none)

/-- R131: the length first, then the characters, then the 16 bytes, first character the high nibble (log 18). -/
def Obligations.KeyDecodeReturns : Prop :=
  ∀ (str : List Byte) (s : State), encode (.keyDecode str) = none ∧
    (str.length ≠ 32 → exec (.keyDecode str) s = .next { s with ret := .keyError .keyLengthInvalid }) ∧
    (str.length = 32 → (∃ c ∈ str, hexval c = none) →
      exec (.keyDecode str) s = .next { s with ret := .keyError .keyNotHex }) ∧
    (str.length = 32 → (∀ c ∈ str, hexval c ≠ none) →
      ∃ k : Key, exec (.keyDecode str) s = .next { s with ret := .key k } ∧
        ∀ (i : Nat) (_ : i < 16) (a b : Byte) (x y : Nibble),
          str[2 * i]? = some a → str[2 * i + 1]? = some b → hexval a = some x → hexval b = some y →
          k[i].toNat = x.toNat * 16 + y.toNat)

/-- R92, R131: upper- and lower-case spellings of one key decode alike. -/
def Obligations.KeyDecodeIgnoresCase : Prop :=
  ∀ a b : List Byte, a.map hexval = b.map hexval → keyDecode a = keyDecode b

/-- R262: a successful call stores the decoded key and sets the flag; a failed one changes no state. -/
def Obligations.SetKeyStoresOrRejects : Prop :=
  ∀ (str : List Byte) (s : State), encode (.enSetKey str) = some ⟨0x400#12, some str⟩ ∧
    (str.length ≠ 32 → exec (.enSetKey str) s = .next { s with resp := .error .keyLengthInvalid }) ∧
    (str.length = 32 → (∃ c ∈ str, hexval c = none) →
      exec (.enSetKey str) s = .next { s with resp := .error .keyNotHex }) ∧
    (str.length = 32 → (∀ c ∈ str, hexval c ≠ none) →
      ∃ k : Key, keyDecode str = .ok k ∧
        exec (.enSetKey str) s = .next { s with en := { s.en with key := k, keyLoaded := true }, resp := .none })

/-! ### Header model (42_header.md) -/

/-- R151: only the count is cleared. -/
def Obligations.HeaderResetClearsCount : Prop :=
  ∀ s : State, encode .hdrReset = none ∧ exec .hdrReset s = .next { s with en := { s.en with hdrCount := 0 } }

/-- R152: the byte goes to the index of the count, every other header byte stays, the count rises by one; a 19th byte
is HDR_OVERRUN. -/
def Obligations.HeaderAddByteAppends : Prop :=
  ∀ (s : State) (b : Byte), encode (.hdrAddByte b) = none ∧
    (s.en.hdrCount < 18 →
      ∃ h : Header, exec (.hdrAddByte b) s =
          .next { s with en := { s.en with hdr := h, hdrCount := s.en.hdrCount + 1 } } ∧
        ∀ (i : Nat) (_ : i < 18), h[i] = if i = s.en.hdrCount then b else s.en.hdr[i]) ∧
    (s.en.hdrCount = 18 → exec (.hdrAddByte b) s = .fault .hdrOverrun)

/-- R153: true exactly with 18 bytes. -/
def Obligations.HeaderCompleteIffEighteen : Prop :=
  ∀ s : State, encode .hdrIsComplete = none ∧ ∃ c : Bool, exec .hdrIsComplete s = .next { s with ret := .bool c } ∧
    (c = true ↔ s.en.hdrCount = 18)

/-- R62, R155: `total_length − 5` with the length big-endian, exact by default and modulo 2^16 under `TWTL_WRAP`. -/
def Obligations.TelegramLengthValue : Prop :=
  ∀ s : State, s.en.hdrCount = 18 → encode .hdrTelegramWithTagLength = none ∧
    ∃ tw : Int, exec .hdrTelegramWithTagLength s = .next { s with ret := .int tw } ∧
      (s.params.twtlWrap = false → tw = (s.en.hdr[11].toNat : Int) * 256 + s.en.hdr[12].toNat - 5) ∧
      (s.params.twtlWrap = true → 5 ≤ s.en.hdr[11].toNat * 256 + s.en.hdr[12].toNat →
        tw = (s.en.hdr[11].toNat : Int) * 256 + s.en.hdr[12].toNat - 5) ∧
      (s.params.twtlWrap = true → s.en.hdr[11].toNat * 256 + s.en.hdr[12].toNat ≤ 4 →
        tw = (s.en.hdr[11].toNat : Int) * 256 + s.en.hdr[12].toNat + 65531)

/-- R156: the five conditions, for a header of 18 bytes. -/
def Obligations.ConsistencyIsFiveConditions : Prop :=
  ∀ s : State, s.en.hdrCount = 18 → encode .hdrCheckConsistency = none ∧
    ∃ c : Bool, exec .hdrCheckConsistency s = .next { s with ret := .bool c } ∧
      (c = true ↔ s.en.hdr[0] = 0xDB#8 ∧ s.en.hdr[1] = 0x08#8 ∧ s.en.hdr[10] = 0x82#8 ∧ s.en.hdr[13] = 0x30#8 ∧
        25 < hdrTw s.params s.en.hdr)

/-- R63, R157: the title's bytes, then the counter's, in wire order. -/
def Obligations.NonceIsTitleThenCounter : Prop :=
  ∀ s : State, s.en.hdrCount = 18 → encode .hdrNonce = none ∧
    exec .hdrNonce s = .next { s with ret := .bytes ((s.en.hdr.toList.drop 2).take 8 ++ s.en.hdr.toList.drop 14) }

/-- R154: the operations that read header fields fault with fewer than 18 bytes. -/
def Obligations.FieldReadNeedsWholeHeader : Prop :=
  ∀ s : State, s.en.hdrCount < 18 →
    exec .hdrTelegramWithTagLength s = .fault .hdrIncomplete ∧
    exec .hdrCheckConsistency s = .fault .hdrIncomplete ∧
    exec .hdrNonce s = .fault .hdrIncomplete

/-- R89, R158: a consistent header has tw ≥ 26, at least 14 ciphertext bytes, and total_length − 17 of them. -/
def Obligations.ConsistentHeaderLengths : Prop :=
  ∀ (p : Params) (h : Header), hdrConsistent p h = true →
    26 ≤ hdrTw p h ∧ 14 ≤ hdrTw p h - 12 ∧
    (p.twtlWrap = false → hdrTw p h - 12 = (h[11].toNat : Int) * 256 + h[12].toNat - 17)

/-! ### AEAD adapter (43_aead_adapter.md) -/

/-- R182: the oracle's answer for the key is returned, and nothing else changes. That an answer listed in `aeadKeyTable` is
the one given is the model's choice of how a construction binds the oracle (log 5). -/
def Obligations.AeadSetKeyReturnsAnswer : Prop :=
  ∀ (key : Key) (s : State), encode (.aeadSetKey key) = none ∧
    exec (.aeadSetKey key) s = .next { s with ret := .bool (aeadSetkey s.params key) } ∧
    ∀ ok, s.params.aeadKeyTable.lookup key = some ok → aeadSetkey s.params key = ok

/-- R183, D32: FAIL or a plaintext of the ciphertext's length is returned; any other length is AEAD_LENGTH, which a
well-typed oracle never gives (logs 5 and 6). That `EN.pt` is unchanged after FAIL, where R183 leaves its bytes
unspecified, is U9's choice for a model (log 12). -/
def Obligations.AeadDecryptReturnsAnswer : Prop :=
  ∀ (q : AeadQuery) (s : State),
    (aeadDecrypt s.params q = none →
      exec (.aeadDecrypt q.key q.nonce q.aad q.ct q.tag) s = .next { s with ret := .plaintext none }) ∧
    (∀ l, aeadDecrypt s.params q = some l → l.length = q.ct.length →
      exec (.aeadDecrypt q.key q.nonce q.aad q.ct q.tag) s = .next { s with ret := .plaintext (some l) }) ∧
    (∀ l, aeadDecrypt s.params q = some l → l.length ≠ q.ct.length →
      exec (.aeadDecrypt q.key q.nonce q.aad q.ct q.tag) s = .fault .aeadLength) ∧
    (oracleTyped s.params = true →
      ∃ r, exec (.aeadDecrypt q.key q.nonce q.aad q.ct q.tag) s = .next { s with ret := .plaintext r })

/-! ### PT unit (44_plaintext_sync.md) -/

/-- R211, R227: `'/'` starts a frame from any state, and reports the frame it cuts off. -/
def Obligations.SlashStartsFrame : Prop :=
  ∀ s : State, s.pt.state ≠ .reserved → 1 ≤ s.params.ptCap →
    ∃ buf : Buf, exec (.ptProcessByte 0x2F#8) s = .next
        { s with
          pt := { s.pt with state := .inFrame, len := 1, buf := buf }
          resp := if s.pt.state = .inFrame ∨ s.pt.state = .inCrc then .error .packetStartSymbolInPacket else .none } ∧
      bufRead buf 0 = some 0x2F#8 ∧ ∀ a, a ≠ 0 → bufRead buf a = bufRead s.pt.buf a

/-- R212: a byte other than `'/'` meets a full buffer, in any state. -/
def Obligations.FullBufferOverflows : Prop :=
  ∀ (s : State) (b : Byte), s.pt.state ≠ .reserved → b ≠ 0x2F#8 → s.pt.len = s.params.ptCap →
    exec (.ptProcessByte b) s =
      .next { s with pt := { s.pt with state := .idle, len := 0 }, resp := .error .bufferOverflow }

/-- R213: any other byte in `Idle` writes no field. -/
def Obligations.IdleByteIgnored : Prop :=
  ∀ (s : State) (b : Byte), s.pt.state = .idle → b ≠ 0x2F#8 → s.pt.len < s.params.ptCap →
    exec (.ptProcessByte b) s = .next { s with resp := .none }

/-- R214: a body byte goes to index `PT.len`, and only there. -/
def Obligations.BodyByteAppended : Prop :=
  ∀ (s : State) (b : Byte), s.pt.state = .inFrame → b ≠ 0x2F#8 → b ≠ 0x21#8 → s.pt.len < s.params.ptCap →
    ∃ buf : Buf, exec (.ptProcessByte b) s =
        .next { s with pt := { s.pt with buf := buf, len := s.pt.len + 1 }, resp := .none } ∧
      bufRead buf s.pt.len = some b ∧ ∀ a, a ≠ s.pt.len → bufRead buf a = bufRead s.pt.buf a

/-- R215: `'!'` with CRC checking disabled delivers the frame, both sentinels included. -/
def Obligations.EndSentinelDelivers : Prop :=
  ∀ (s : State) (body : List Byte), s.pt.state = .inFrame → s.pt.len < s.params.ptCap →
    s.params.ptCheckCrc = false → bufReadRange s.pt.buf 0 s.pt.len = some body →
    ∃ buf : Buf, exec (.ptProcessByte 0x21#8) s = .next
        { s with
          pt := { s.pt with
            state := .idle, buf := buf, len := if s.params.ptClearOnIdle = true then 0 else s.pt.len + 1 }
          resp := .packet (body ++ [0x21#8]) } ∧
      bufRead buf s.pt.len = some 0x21#8 ∧ ∀ a, a ≠ s.pt.len → bufRead buf a = bufRead s.pt.buf a

/-- R216: `'!'` with CRC checking enabled opens the trailer with a cleared accumulator. -/
def Obligations.EndSentinelOpensTrailer : Prop :=
  ∀ s : State, s.pt.state = .inFrame → s.pt.len < s.params.ptCap → s.params.ptCheckCrc = true →
    ∃ buf : Buf, exec (.ptProcessByte 0x21#8) s = .next
        { s with
          pt := { state := .inCrc, buf := buf, len := s.pt.len + 1, crcAcc := 0x0000#16, crcNibbles := 0 }
          resp := .none } ∧
      bufRead buf s.pt.len = some 0x21#8 ∧ ∀ a, a ≠ s.pt.len → bufRead buf a = bufRead s.pt.buf a

/-- R217: a byte that is no hex digit ends the trailer. -/
def Obligations.BadTrailerCharacter : Prop :=
  ∀ (s : State) (b : Byte), s.pt.state = .inCrc → b ≠ 0x2F#8 → s.pt.len < s.params.ptCap → hexval b = none →
    exec (.ptProcessByte b) s = .next
      { s with
        pt := { s.pt with state := .idle, len := if s.params.ptClearOnIdle = true then 0 else s.pt.len }
        resp := .error .incorrectCrcCharacter }

/-- R218 for the first three digits: the digit is folded in below the others, and nothing is answered. -/
def Obligations.TrailerDigitFolded : Prop :=
  ∀ (s : State) (b : Byte) (d : Nibble), s.pt.state = .inCrc → b ≠ 0x2F#8 → s.pt.len < s.params.ptCap →
    hexval b = some d → s.pt.crcNibbles + 1 < 4 →
    ∃ acc : Word, exec (.ptProcessByte b) s = .next
        { s with pt := { s.pt with crcAcc := acc, crcNibbles := s.pt.crcNibbles + 1 }, resp := .none } ∧
      acc.toNat = (s.pt.crcAcc.toNat * 16 + d.toNat) % 65536

/-- R219, R220: the fourth digit compares the trailer with the CRC of the buffer and ends the frame. -/
def Obligations.FourthDigitDecides : Prop :=
  ∀ (s : State) (b : Byte) (d : Nibble) (l : List Byte), s.pt.state = .inCrc → b ≠ 0x2F#8 →
    s.pt.len < s.params.ptCap → hexval b = some d → s.pt.crcNibbles + 1 = 4 →
    bufReadRange s.pt.buf 0 s.pt.len = some l →
    exec (.ptProcessByte b) s = .next
      { s with
        pt := { s.pt with
          state := .idle, crcAcc := foldNibble s.pt.crcAcc d, crcNibbles := 4
          len := if s.params.ptClearOnIdle = true then 0 else s.pt.len }
        resp := if foldNibble s.pt.crcAcc d = crc16 l then .packet l else .error .crcMismatch }

/-- R221: the command word, the four fields, and a second reset changes nothing (R68). -/
def Obligations.PtResetClears : Prop :=
  ∀ s : State, encode .ptReset = some ⟨0x100#12, none⟩ ∧
    exec .ptReset s = .next
      { s with pt := { s.pt with state := .idle, len := 0, crcAcc := 0x0000#16, crcNibbles := 0 }, resp := .none } ∧
    ∀ t, exec .ptReset s = .next t → exec .ptReset t = .next t

/-- The frame of the PT operations: the EN unit, the parameters and the host side are untouched (R69), and a byte of
`PT.buf` changes only at index 0 for `'/'`, or at index `PT.len` for another byte in `InFrame` with room (R211,
R214 to R216). -/
def Obligations.PtOperationFrame : Prop :=
  (∀ (s t : State) (b : Byte), exec (.ptProcessByte b) s = .next t →
    t.en = s.en ∧ t.params = s.params ∧ t.pending = s.pending ∧ t.ret = s.ret ∧
    ∀ a, (b = 0x2F#8 → a ≠ 0) →
      (b ≠ 0x2F#8 → s.pt.state = .inFrame → s.pt.len ≠ s.params.ptCap → a ≠ s.pt.len) →
      bufRead t.pt.buf a = bufRead s.pt.buf a) ∧
  (∀ s t : State, exec .ptReset s = .next t →
    t.en = s.en ∧ t.params = s.params ∧ t.pending = s.pending ∧ t.ret = s.ret ∧ t.pt.buf = s.pt.buf)

/-- R223, R225, R227 without CRC: from every state that meets the invariant, a frame that fits is delivered on its last
byte, whole, with the sentinels; only its first byte may report a frame cut off. -/
def Obligations.PlainFrameDelivered : Prop :=
  ∀ (s : State) (body : List Byte), s.Inv → s.params.ptCheckCrc = false →
    (∀ b ∈ body, b ≠ 0x2F#8 ∧ b ≠ 0x21#8) → body.length + 2 ≤ s.params.ptCap →
    ∃ s', run (ptFeed (0x2F#8 :: body ++ [0x21#8])) s = .done
        ((if s.pt.state = .idle then .none else .error .packetStartSymbolInPacket) ::
          List.replicate body.length .none ++ [.packet (0x2F#8 :: body ++ [0x21#8])]) s' ∧
      s'.pt.state = .idle ∧ s'.en = s.en

/-- R223, R225, R227 with CRC: the same for a frame of at most `PT_CAP − 1` bytes followed by the four digits of its
CRC, most significant first; the trailer is not in the packet. -/
def Obligations.PlainFrameWithTrailerDelivered : Prop :=
  ∀ (s : State) (body : List Byte) (c3 c2 c1 c0 : Byte) (d3 d2 d1 d0 : Nibble), s.Inv → s.params.ptCheckCrc = true →
    (∀ b ∈ body, b ≠ 0x2F#8 ∧ b ≠ 0x21#8) → body.length + 2 < s.params.ptCap →
    hexval c3 = some d3 → hexval c2 = some d2 → hexval c1 = some d1 → hexval c0 = some d0 →
    crc16 (0x2F#8 :: body ++ [0x21#8]) = d3 ++ d2 ++ d1 ++ d0 →
    ∃ s', run (ptFeed (0x2F#8 :: body ++ [0x21#8, c3, c2, c1, c0])) s = .done
        ((if s.pt.state = .idle then .none else .error .packetStartSymbolInPacket) ::
          List.replicate (body.length + 4) .none ++ [.packet (0x2F#8 :: body ++ [0x21#8])]) s' ∧
      s'.pt.state = .idle ∧ s'.en = s.en

/-- R226: with `PT_CLEAR_ON_IDLE = false`, after a packet of exactly `PT_CAP` bytes without CRC the next byte other than
`'/'` answers BufferOverflow, clears the buffer and leaves the unit in `Idle`. -/
def Obligations.OverflowAfterFullPacket : Prop :=
  ∀ (s : State) (body : List Byte) (b : Byte), s.params.ptClearOnIdle = false → s.params.ptCheckCrc = false →
    s.pt.state = .inFrame → s.pt.len + 1 = s.params.ptCap → bufReadRange s.pt.buf 0 s.pt.len = some body →
    b ≠ 0x2F#8 →
    ∃ s', run (ptFeed [0x21#8, b]) s = .done [.packet (body ++ [0x21#8]), .error .bufferOverflow] s' ∧
      s'.pt.len = 0 ∧ s'.pt.state = .idle

/-- R222, R223, R225: from every state that meets the invariant, a delivered packet starts with `'/'`, ends with `'!'`,
holds no other sentinel, and fits the capacity, with one byte to spare in CRC mode. -/
def Obligations.PacketHasFrameShape : Prop :=
  ∀ (s t : State) (b : Byte) (p : List Byte), s.Inv → exec (.ptProcessByte b) s = .next t → t.resp = .packet p →
    ∃ body : List Byte, p = 0x2F#8 :: body ++ [0x21#8] ∧ (∀ c ∈ body, c ≠ 0x2F#8 ∧ c ≠ 0x21#8) ∧
      p.length ≤ s.params.ptCap ∧ (s.params.ptCheckCrc = true → p.length < s.params.ptCap)

/-! ### EN unit (45_encrypted_sync.md) -/

/-- R251: 0xDB in `Idle` starts a header with itself as byte 0. -/
def Obligations.SentinelStartsHeader : Prop :=
  ∀ s : State, s.en.state = .idle →
    ∃ h : Header, exec (.enProcessByte 0xDB#8) s = .next
        { s with
          en := { s.en with state := .accumulatingHeader, hdr := h, hdrCount := 1, ctLen := 0 }
          resp := .none } ∧
      h[0] = 0xDB#8 ∧ ∀ (i : Nat) (_ : i < 18), i ≠ 0 → h[i] = s.en.hdr[i]

/-- R252: any other byte in `Idle` writes no field. -/
def Obligations.EnIdleByteIgnored : Prop :=
  ∀ (s : State) (b : Byte), s.en.state = .idle → b ≠ 0xDB#8 →
    exec (.enProcessByte b) s = .next { s with resp := .none }

/-- R253 for the bytes before the 18th: any byte, 0xDB included, is collected. -/
def Obligations.HeaderByteCollected : Prop :=
  ∀ (s : State) (b : Byte), s.en.state = .accumulatingHeader → s.en.hdrCount + 1 < 18 →
    ∃ h : Header, exec (.enProcessByte b) s =
        .next { s with en := { s.en with hdr := h, hdrCount := s.en.hdrCount + 1 }, resp := .none } ∧
      ∀ (i : Nat) (_ : i < 18), h[i] = if i = s.en.hdrCount then b else s.en.hdr[i]

/-- R254, R255, R256: the verdict on the 18th byte, consistency before capacity. -/
def Obligations.EighteenthByteVerdict : Prop :=
  ∀ (s : State) (b : Byte) (h : Header), s.en.state = .accumulatingHeader → s.en.hdrCount = 17 →
    h = s.en.hdr.set 17 b →
    (hdrConsistent s.params h = false → exec (.enProcessByte b) s = .next
      { s with en := { s.en with state := .idle, hdr := h, hdrCount := 18 }, resp := .error .headerCorrupted }) ∧
    (hdrConsistent s.params h = true → (s.params.enCap : Int) < hdrTw s.params h → exec (.enProcessByte b) s = .next
      { s with en := { s.en with state := .idle, hdr := h, hdrCount := 18 }, resp := .error .bufferOverflow }) ∧
    (hdrConsistent s.params h = true → hdrTw s.params h ≤ (s.params.enCap : Int) → exec (.enProcessByte b) s = .next
      { s with en := { s.en with state := .accumulatingTelegram, hdr := h, hdrCount := 18 }, resp := .none })

/-- R257 for the bytes before the last: any byte goes to index `EN.ct_len` of the ciphertext buffer, and only there. -/
def Obligations.CipherByteStored : Prop :=
  ∀ (s : State) (b : Byte), s.en.state = .accumulatingTelegram → s.en.hdrCount = 18 →
    s.en.ctLen < s.params.enCap → (s.en.ctLen : Int) + 1 < hdrTw s.params s.en.hdr →
    ∃ ct : Buf, exec (.enProcessByte b) s =
        .next { s with en := { s.en with ct := ct, ctLen := s.en.ctLen + 1 }, resp := .none } ∧
      bufRead ct s.en.ctLen = some b ∧ ∀ a, a ≠ s.en.ctLen → bufRead ct a = bufRead s.en.ct a

/-- R258: the outcomes of a frame's last byte, in the order of the rule, and the registers it keeps. The unit is in
`Idle` after every response. What `EN.pt` holds after a failure is not spoken of (U9). -/
def Obligations.FrameCompletionOutcome : Prop :=
  ∀ (s : State) (b : Byte) (l : List Byte), s.en.state = .accumulatingTelegram → s.en.hdrCount = 18 →
    s.en.ctLen < s.params.enCap → (s.en.ctLen : Int) + 1 = hdrTw s.params s.en.hdr → 11 ≤ s.en.ctLen →
    bufReadRange s.en.ct 0 s.en.ctLen = some l →
    (s.en.keyLoaded = false → exec (.enProcessByte b) s = .fault .keyNotLoaded) ∧
    (s.en.keyLoaded = true → aeadSetkey s.params s.en.key = false →
      ∃ t, exec (.enProcessByte b) s = .next t ∧ t.resp = .error .failedToSetEncryptionKey ∧ t.en.state = .idle ∧
        t.en.hdrCount = 18 ∧ t.en.ctLen = s.en.ctLen + 1) ∧
    (s.en.keyLoaded = true → aeadSetkey s.params s.en.key = true →
      aeadDecrypt s.params (frameQuery s.en (l ++ [b])) = none →
      ∃ t, exec (.enProcessByte b) s = .next t ∧ t.resp = .error .decryptionFailed ∧ t.en.state = .idle ∧
        t.en.hdrCount = 18 ∧ t.en.ctLen = s.en.ctLen + 1) ∧
    (∀ plain, s.en.keyLoaded = true → aeadSetkey s.params s.en.key = true →
      aeadDecrypt s.params (frameQuery s.en (l ++ [b])) = some plain →
      plain.length + 12 = l.length + 1 →
      ∃ t, exec (.enProcessByte b) s = .next t ∧ t.resp = .packet plain ∧ t.en.state = .idle ∧
        bufReadRange t.en.pt 0 plain.length = some plain ∧ t.en.hdrCount = 18 ∧ t.en.ctLen = s.en.ctLen + 1)

/-- R261: the command word and the three fields; the key, its flag and the bytes are kept, and a second reset changes nothing (R68). -/
def Obligations.EnResetClears : Prop :=
  ∀ s : State, encode .enReset = some ⟨0x300#12, none⟩ ∧
    exec .enReset s = .next { s with en := { s.en with state := .idle, hdrCount := 0, ctLen := 0 }, resp := .none } ∧
    ∀ t, exec .enReset s = .next t → exec .enReset t = .next t

/-- The frame of `EN_PROCESS_BYTE`: the PT unit, the parameters, the host side, the key and its flag are untouched (R69,
R32); a header byte changes only at index 0 in `Idle` on 0xDB or at index `EN.hdr_count` in `AccumulatingHeader`; a
ciphertext byte only at index `EN.ct_len` in `AccumulatingTelegram`; a byte of `EN.pt` only below the length of a
delivered packet (R31, R258; that a failed decryption writes none is U9's choice for a model, log 12). -/
def Obligations.EnProcessByteFrame : Prop :=
  ∀ (s t : State) (b : Byte), exec (.enProcessByte b) s = .next t →
    t.pt = s.pt ∧ t.params = s.params ∧ t.pending = s.pending ∧ t.ret = s.ret ∧
    t.en.key = s.en.key ∧ t.en.keyLoaded = s.en.keyLoaded ∧
    (∀ (i : Nat) (_ : i < 18),
      (s.en.state = .idle → b = 0xDB#8 → i ≠ 0) → (s.en.state = .accumulatingHeader → i ≠ s.en.hdrCount) →
      t.en.hdr[i] = s.en.hdr[i]) ∧
    (∀ a, (s.en.state = .accumulatingTelegram → a ≠ s.en.ctLen) → bufRead t.en.ct a = bufRead s.en.ct a) ∧
    (∀ a, (∀ p, t.resp = .packet p → p.length ≤ a) → bufRead t.en.pt a = bufRead s.en.pt a)

/-- R89, R265, R267: a whole encrypted frame fed in `Idle`. Every byte but the last answers None, 0xDB included, and the
last answers as R258 says: with a key loaded and accepted, the decrypted region unmodified, or DecryptionFailed. -/
def Obligations.EncryptedFrameDelivered : Prop :=
  ∀ (s : State) (h : Header) (l : List Byte), s.Inv → s.en.state = .idle → s.en.keyLoaded = true →
    oracleTyped s.params = true → aeadSetkey s.params s.en.key = true →
    hdrConsistent s.params h = true → hdrTw s.params h ≤ (s.params.enCap : Int) →
    (l.length : Int) = hdrTw s.params h →
    ∃ s', run (enFeed (h.toList ++ l)) s = .done
        (List.replicate (17 + l.length) .none ++
          [match aeadDecrypt s.params (frameQuery { s.en with hdr := h } l) with
            | some plain => .packet plain
            | none => .error .decryptionFailed]) s' ∧
      s'.en.state = .idle ∧ s'.pt = s.pt

/-! ### Errors, responses, independence, notation -/

/-- R302, R266: the state after an error. -/
def Obligations.StateAfterError : Prop :=
  (∀ (s t : State) (b : Byte) (k : ErrorKind), exec (.ptProcessByte b) s = .next t → t.resp = .error k →
    (k ≠ .packetStartSymbolInPacket → t.pt.state = .idle) ∧ (k = .bufferOverflow → t.pt.len = 0) ∧
    (k = .packetStartSymbolInPacket →
      t.pt.state = .inFrame ∧ t.pt.len = 1 ∧ bufRead t.pt.buf 0 = some 0x2F#8)) ∧
  (∀ (s t : State) (b : Byte) (k : ErrorKind), exec (.enProcessByte b) s = .next t → t.resp = .error k →
    k ≠ .packetStartSymbolInPacket ∧ t.en.state = .idle) ∧
  (∀ (s t : State) (str : List Byte) (k : ErrorKind), exec (.enSetKey str) s = .next t → t.resp = .error k →
    t = { s with resp := .error k })

/-- R301, R84: the codes 1 to 9, one for each error kind, and the response record; `kind` 3 and the codes 0 and 10 to
15 belong to no error response. -/
def Obligations.ResponseRecordCodes : Prop :=
  ([.bufferOverflow, .packetStartSymbolInPacket, .incorrectCrcCharacter, .crcMismatch, .headerCorrupted,
    .failedToSetEncryptionKey, .decryptionFailed, .keyLengthInvalid, .keyNotHex] : List ErrorKind).map errorCode =
    [1#4, 2#4, 3#4, 4#4, 5#4, 6#4, 7#4, 8#4, 9#4] ∧
  (∀ r : Response, (responseRecord r).kind ≠ 3#2 ∧
    ((responseRecord r).kind = 2#2 → 1 ≤ (responseRecord r).err.toNat ∧ (responseRecord r).err.toNat ≤ 9) ∧
    ((responseRecord r).kind ≠ 2#2 → (responseRecord r).err = 0#4) ∧
    (responseRecord r).plen = (responseRecord r).pdata.length) ∧
  (∀ l : List Byte, responseRecord (.packet l) = ⟨1#2, 0#4, l.length, l, 0#16⟩) ∧
  (∀ k : ErrorKind, responseRecord (.error k) = ⟨2#2, errorCode k, 0, [], 0#16⟩) ∧
  (∀ w : Word, responseRecord (.crc w) = ⟨0#2, 0#4, 0, [], w⟩) ∧
  responseRecord .none = ⟨0#2, 0#4, 0, [], 0#16⟩

/-- R69: the PT unit's responses and states in any completed run are those of its own transactions alone, and so are
the EN unit's with `EN_SET_KEY` and `CRC16_COMPUTE`. -/
def Obligations.UnitsRunIndependently : Prop :=
  ∀ (ts : List Transaction) (s s' : State) (rs : List Response), run ts s = .done rs s' →
    (∃ u, run (ts.filter isPtTransaction) s =
        .done (((ts.zip rs).filter fun x => isPtTransaction x.1).map Prod.snd) u ∧ u.pt = s'.pt) ∧
    (∃ u, run (ts.filter fun t => !isPtTransaction t) s =
        .done (((ts.zip rs).filter fun x => !isPtTransaction x.1).map Prod.snd) u ∧ u.en = s'.en)

/-- R95, R96: the notation stands for the transactions of the table: a line of R95 for the operation it names, a
pseudo-instruction for one byte operation a byte, in order. -/
def Obligations.NotationExpandsToTransactions : Prop :=
  (∀ (m : Option Nat) (b : Byte), (asmExpand (.ptByte b)).map (decode m) = [.ok (.ptProcessByte b)] ∧
    (asmExpand (.enByte b)).map (decode m) = [.ok (.enProcessByte b)]) ∧
  (∀ m : Option Nat, (asmExpand .ptReset).map (decode m) = [.ok .ptReset] ∧
    (asmExpand .enReset).map (decode m) = [.ok .enReset]) ∧
  (∀ s : List Byte, (asmExpand (.enSetkey s)).map (decode none) = [.ok (.enSetKey s)] ∧
    (asmExpand (.crc16 s)).map (decode none) = [.ok (.crc16Compute s)]) ∧
  (∀ s : List Byte, asmExpand (.ptStr s) = ptFeed s ∧ asmExpand (.ptHex s) = ptFeed s ∧
    asmExpand (.enStr s) = enFeed s ∧ asmExpand (.enHex s) = enFeed s)
end

