-- ==== Sys2Proof/Laws/Buf.lean ====
section
/-! SUPPORT. The laws of the internal buffers: a read after a write, the canonical form and the capacity bound kept by
every write, and what `MemRead` and `MemWrite` can answer (20_memory.md R61). -/

namespace Sys2Proof.Machine

@[simp] theorem bufRead_nil (a : Nat) : bufRead [] a = none := rfl

theorem bufRead_cons (i : Nat) (b : Byte) (m : Buf) (a : Nat) :
    bufRead ((i, b) :: m) a = if i = a then some b else bufRead m a := rfl

@[simp] theorem bufRead_bufWrite_same (m : Buf) (a : Nat) (v : Byte) : bufRead (bufWrite m a v) a = some v := by
  induction m with
  | nil => simp [bufWrite, bufRead]
  | cons c m ih =>
    obtain ⟨i, b⟩ := c
    simp only [bufWrite]
    split_ifs with h1 h2
    · simp [bufRead]
    · simp [bufRead]
    · simp [bufRead, ih, Ne.symm h2]

theorem bufRead_bufWrite_other (m : Buf) (a a' : Nat) (v : Byte) (h : a' ≠ a) :
    bufRead (bufWrite m a v) a' = bufRead m a' := by
  induction m with
  | nil => simp [bufWrite, bufRead, h.symm]
  | cons c m ih =>
    obtain ⟨i, b⟩ := c
    simp only [bufWrite]
    split_ifs with h1 h2
    · simp [bufRead, h.symm]
    · subst h2
      simp [bufRead, h.symm]
    · simp [bufRead, ih]

theorem bufRead_bufWrite (m : Buf) (a a' : Nat) (v : Byte) :
    bufRead (bufWrite m a v) a' = if a' = a then some v else bufRead m a' := by
  split_ifs with h
  · subst h; simp
  · exact bufRead_bufWrite_other m a a' v h

/-- A byte outside a written range reads as before. -/
theorem bufRead_bufWriteRange_outside (m : Buf) (i : Nat) (l : List Byte) (a : Nat) (h : a < i ∨ i + l.length ≤ a) :
    bufRead (bufWriteRange m i l) a = bufRead m a := by
  induction l generalizing m i with
  | nil => rfl
  | cons b l ih =>
    simp only [List.length_cons] at h
    rw [bufWriteRange, ih _ _ (by omega), bufRead_bufWrite_other _ _ _ _ (by omega)]

/-- A byte inside a written range reads as written. -/
theorem bufRead_bufWriteRange_inside (m : Buf) (i : Nat) (l : List Byte) (j : Nat) (h : j < l.length) :
    bufRead (bufWriteRange m i l) (i + j) = some l[j] := by
  induction l generalizing m i j with
  | nil => simp at h
  | cons b l ih =>
    cases j with
    | zero =>
      rw [bufWriteRange, bufRead_bufWriteRange_outside _ _ _ _ (by omega)]
      simp
    | succ j =>
      have := ih (bufWrite m i b) (i + 1) j (by simpa using h)
      rw [bufWriteRange, show i + (j + 1) = i + 1 + j by omega, this]
      simp

/-! ### The canonical form -/

theorem bufWf_tail (c : Host.Cell) (m : Buf) (h : bufWf (c :: m) = true) : bufWf m = true := by
  cases m with
  | nil => rfl
  | cons d m =>
    obtain ⟨i, b⟩ := c; obtain ⟨j, b'⟩ := d
    simp only [bufWf, Bool.and_eq_true, decide_eq_true_eq] at h
    exact h.2

theorem bufWf_cons (i : Nat) (b : Byte) (m : Buf) :
    bufWf ((i, b) :: m) = true ↔ bufWf m = true ∧ ∀ c, m.head? = some c → i < c.1 := by
  cases m with
  | nil => simp [bufWf]
  | cons d m =>
    obtain ⟨j, b'⟩ := d
    simp [bufWf, and_comm]

theorem bufWrite_head (m : Buf) (a : Nat) (v : Byte) (c : Host.Cell) (h : (bufWrite m a v).head? = some c) :
    c.1 = a ∨ m.head? = some c := by
  cases m with
  | nil => simp [bufWrite] at h; exact .inl (by rw [← h])
  | cons d m =>
    obtain ⟨i, b⟩ := d
    simp only [bufWrite] at h
    split_ifs at h
    · simp at h; exact .inl (by rw [← h])
    · simp at h; exact .inl (by rw [← h])
    · simp at h; exact .inr (by simp [h])

/-- A write keeps the canonical form. -/
theorem bufWrite_wf (m : Buf) (a : Nat) (v : Byte) (h : bufWf m = true) : bufWf (bufWrite m a v) = true := by
  induction m with
  | nil => rfl
  | cons c m ih =>
    obtain ⟨i, b⟩ := c
    have ht := bufWf_tail _ _ h
    simp only [bufWrite]
    split_ifs with h1 h2
    · exact (bufWf_cons _ _ _).2 ⟨h, by simp [h1]⟩
    · subst h2
      exact (bufWf_cons _ _ _).2 ((bufWf_cons _ _ _).1 h)
    · refine (bufWf_cons _ _ _).2 ⟨ih ht, fun c hc => ?_⟩
      rcases bufWrite_head _ _ _ _ hc with hc | hc
      · omega
      · exact ((bufWf_cons _ _ _).1 h).2 c hc

/-- A range write keeps the canonical form. -/
theorem bufWriteRange_wf (m : Buf) (i : Nat) (l : List Byte) (h : bufWf m = true) :
    bufWf (bufWriteRange m i l) = true := by
  induction l generalizing m i with
  | nil => exact h
  | cons b l ih => exact ih _ _ (bufWrite_wf _ _ _ h)

/-- A write below the capacity keeps every index below it. -/
theorem bufWrite_within (cap : Nat) (m : Buf) (a : Nat) (v : Byte) (h : bufWithin cap m = true) (ha : a < cap) :
    bufWithin cap (bufWrite m a v) = true := by
  induction m with
  | nil => simp [bufWrite, bufWithin, ha]
  | cons c m ih =>
    obtain ⟨i, b⟩ := c
    simp only [bufWithin, List.all_cons, Bool.and_eq_true, decide_eq_true_eq] at h ih ⊢
    simp only [bufWrite]
    split_ifs
    · simp [ha, h.1, h.2]
    · simp [ha, h.2]
    · simp [h.1, ih h.2]

theorem bufWriteRange_within (cap : Nat) (m : Buf) (i : Nat) (l : List Byte) (h : bufWithin cap m = true)
    (hl : i + l.length ≤ cap) : bufWithin cap (bufWriteRange m i l) = true := by
  induction l generalizing m i with
  | nil => exact h
  | cons b l ih =>
    simp only [List.length_cons] at hl
    exact ih _ _ (bufWrite_within _ _ _ _ h (by omega)) (by omega)

/-! ### Reading ranges -/

/-- What a range read answers: as many bytes as asked for, each the byte at its index. -/
theorem bufReadRange_some (m : Buf) (i n : Nat) (l : List Byte) (h : bufReadRange m i n = some l) :
    l.length = n ∧ ∀ j (hj : j < l.length), bufRead m (i + j) = some l[j] := by
  induction n generalizing i l with
  | zero => simp [bufReadRange] at h; subst h; simp
  | succ n ih =>
    simp only [bufReadRange] at h
    split at h
    · rename_i b l' hb hl
      obtain ⟨hlen, hread⟩ := ih _ _ hl
      simp only [Option.some.injEq] at h
      subst h
      refine ⟨by simp [hlen], fun j hj => ?_⟩
      cases j with
      | zero => simpa using hb
      | succ j =>
        have := hread j (by simpa using hj)
        rw [show i + (j + 1) = i + 1 + j by omega, this]; simp
    · simp at h

/-- A range all of whose bytes have been written can be read. -/
theorem bufReadRange_isSome (m : Buf) (i n : Nat) (h : ∀ j < n, (bufRead m (i + j)).isSome = true) :
    ∃ l, bufReadRange m i n = some l := by
  induction n generalizing i with
  | zero => exact ⟨[], rfl⟩
  | succ n ih =>
    obtain ⟨l, hl⟩ := ih (i + 1) (fun j hj => by
      have := h (j + 1) (by omega)
      rwa [show i + (j + 1) = i + 1 + j by omega] at this)
    obtain ⟨b, hb⟩ := Option.isSome_iff_exists.1 (h 0 (by omega))
    exact ⟨b :: l, by simp only [Nat.add_zero] at hb; simp [bufReadRange, hb, hl]⟩

/-- Range reads of two buffers that agree on the range are equal. -/
theorem bufReadRange_congr (m m' : Buf) (i n : Nat) (h : ∀ j < n, bufRead m (i + j) = bufRead m' (i + j)) :
    bufReadRange m i n = bufReadRange m' i n := by
  induction n generalizing i with
  | zero => rfl
  | succ n ih =>
    have h0 := h 0 (by omega)
    simp only [Nat.add_zero] at h0
    simp only [bufReadRange, h0]
    rw [ih (i + 1) (fun j hj => by
      have := h (j + 1) (by omega)
      rwa [show i + (j + 1) = i + 1 + j by omega] at this)]

/-- A range read one byte longer. -/
theorem bufReadRange_succ (m : Buf) (i n : Nat) (l : List Byte) (b : Byte) (h : bufReadRange m i n = some l)
    (hb : bufRead m (i + n) = some b) : bufReadRange m i (n + 1) = some (l ++ [b]) := by
  induction n generalizing i l with
  | zero =>
    simp only [bufReadRange, Option.some.injEq] at h
    subst h
    simp only [Nat.add_zero] at hb
    simp [bufReadRange, hb]
  | succ n ih =>
    rw [bufReadRange] at h
    split at h
    · rename_i c l' hc hl
      simp only [Option.some.injEq] at h
      subst h
      have := ih (i + 1) l' hl (by rwa [show i + 1 + n = i + (n + 1) by omega])
      rw [bufReadRange, hc, this]
      rfl
    · simp at h

/-- What was written is what is read back. -/
theorem bufReadRange_bufWriteRange (m : Buf) (i : Nat) (l : List Byte) :
    bufReadRange (bufWriteRange m i l) i l.length = some l := by
  obtain ⟨l', hl'⟩ := bufReadRange_isSome (bufWriteRange m i l) i l.length fun j hj => by
    rw [bufRead_bufWriteRange_inside m i l j hj]; rfl
  obtain ⟨hlen, hread⟩ := bufReadRange_some _ _ _ _ hl'
  rw [hl']
  congr 1
  refine List.ext_getElem hlen fun j h1 h2 => ?_
  have := hread j h1
  rw [bufRead_bufWriteRange_inside m i l j h2] at this
  simpa using this.symm

/-! ### `MemRead` and `MemWrite` -/

/-- Everything `MemWrite` can do. -/
theorem memWrite_cases (cap : Nat) (m : Buf) (i : Nat) (v : List Byte) :
    (i + v.length ≤ cap ∧ memWrite cap m i v = .ok (bufWriteRange m i v)) ∨
    (cap < i + v.length ∧ memWrite cap m i v = .error .bufferBounds) := by
  simp only [memWrite]
  split_ifs with h
  · exact .inl ⟨h, rfl⟩
  · exact .inr ⟨by omega, rfl⟩

theorem memWrite_ok (cap : Nat) (m m' : Buf) (i : Nat) (v : List Byte) (h : memWrite cap m i v = .ok m') :
    i + v.length ≤ cap ∧ m' = bufWriteRange m i v := by
  rcases memWrite_cases cap m i v with ⟨hb, he⟩ | ⟨_, he⟩ <;> rw [he] at h <;> simp at h
  exact ⟨hb, h.symm⟩

/-- A write inside the capacity succeeds. -/
theorem memWrite_inside (cap : Nat) (m : Buf) (i : Nat) (v : List Byte) (h : i + v.length ≤ cap) :
    memWrite cap m i v = .ok (bufWriteRange m i v) := by simp [memWrite, h]

/-- Everything `MemRead` can do. -/
theorem memRead_ok (cap : Nat) (m : Buf) (i n : Nat) (l : List Byte) (h : memRead cap m i n = .ok l) :
    i + n ≤ cap ∧ bufReadRange m i n = some l := by
  simp only [memRead] at h
  split_ifs at h with hb
  refine ⟨hb, ?_⟩
  split at h <;> simp_all

/-- A read inside the capacity of bytes that have been written succeeds. -/
theorem memRead_inside (cap : Nat) (m : Buf) (i n : Nat) (l : List Byte) (h : i + n ≤ cap)
    (hl : bufReadRange m i n = some l) : memRead cap m i n = .ok l := by simp [memRead, h, hl]

/-- The beginning of a range that can be read. -/
theorem bufReadRange_take (m : Buf) (l : List Byte) (i n k : Nat) (h : bufReadRange m i n = some l) (hk : k ≤ n) :
    bufReadRange m i k = some (l.take k) := by
  induction n generalizing i l k with
  | zero =>
    obtain rfl : k = 0 := by omega
    rfl
  | succ n ih =>
    rw [bufReadRange] at h
    split at h <;> simp only [Option.some.injEq, reduceCtorEq] at h
    rename_i c l' hc hl
    subst h
    cases k with
    | zero => rfl
    | succ k => rw [bufReadRange, hc, ih _ _ _ hl (by omega)]; rfl

/-- The end of a range that can be read. -/
theorem bufReadRange_drop (m : Buf) (l : List Byte) (i n k : Nat) (h : bufReadRange m i n = some l) (hk : k ≤ n) :
    bufReadRange m (i + k) (n - k) = some (l.drop k) := by
  induction n generalizing i l k with
  | zero =>
    obtain rfl : k = 0 := by omega
    simpa using h
  | succ n ih =>
    cases k with
    | zero => simpa using h
    | succ k =>
      rw [bufReadRange] at h
      split at h <;> simp only [Option.some.injEq, reduceCtorEq] at h
      rename_i c l' hc hl
      subst h
      have := ih _ _ k hl (by omega)
      rw [show i + (k + 1) = i + 1 + k by omega, show n + 1 - (k + 1) = n - k by omega, this]
      rfl

/-- A range read of a buffer to which one byte has been appended. -/
theorem bufReadRange_snoc (m : Buf) (n : Nat) (l : List Byte) (b : Byte) (h : bufReadRange m 0 n = some l) :
    bufReadRange (bufWrite m n b) 0 (n + 1) = some (l ++ [b]) := by
  have h' : bufReadRange (bufWrite m n b) 0 n = some l := by
    rw [← h]; exact bufReadRange_congr _ _ _ _ fun j hj => bufRead_bufWrite_other _ _ _ _ (by omega)
  exact bufReadRange_succ _ _ _ _ _ h' (by simp)

end Sys2Proof.Machine
end

