-- ==== Sys2Proof/Laws/Crc16.lean ====
section
/-! SUPPORT. The fold laws of the CRC engine (40_crc16.md R111, R112). -/

namespace Sys2Proof.Machine

@[simp] theorem crc16From_nil (c : Word) : crc16From c [] = c := rfl

@[simp] theorem crc16From_cons (c : Word) (b : Byte) (l : List Byte) :
    crc16From c (b :: l) = crc16From (crc16Step c b) l := rfl

theorem crc16From_append (c : Word) (a b : List Byte) : crc16From c (a ++ b) = crc16From (crc16From c a) b := by
  simp [crc16From]

/-- One byte more is one `CRC16_STEP` more. -/
theorem crc16_snoc (l : List Byte) (b : Byte) : crc16 (l ++ [b]) = crc16Step (crc16 l) b := by
  simp [crc16, crc16From_append]

end Sys2Proof.Machine
end

