-- ==== Sys2Proof/Laws/EnUnit.lean ====
section
/-! SUPPORT. What the EN unit's operations can do, once: `EnTransition` lists the transitions of 45_encrypted_sync.md R251
to R258 with their conditions and effects, and `enStep_transition` says that `EN_PROCESS_BYTE` is one of them whenever
it answers. -/

namespace Sys2Proof.Machine

/-- The EN unit after a header byte (R152). -/
abbrev enAfterHeader (b : Byte) (u : EnUnit) (h : u.hdrCount < 18) : EnUnit :=
  { u with hdr := u.hdr.set u.hdrCount b h, hdrCount := u.hdrCount + 1 }

/-- The EN unit after a ciphertext byte (R257). -/
abbrev enAfterCipher (b : Byte) (u : EnUnit) : EnUnit :=
  { u with ct := bufWrite u.ct u.ctLen b, ctLen := u.ctLen + 1 }

/-- The transitions of the EN unit: condition, unit after, response. -/
inductive EnTransition (p : Params) (b : Byte) (u : EnUnit) : EnUnit → Response → Prop where
  | sof (hs : u.state = .idle) (hb : b = enSentinel) :
      EnTransition p b u
        { u with state := .accumulatingHeader, hdr := u.hdr.set 0 enSentinel, hdrCount := 1, ctLen := 0 } .none
  | idle (hs : u.state = .idle) (hb : b ≠ enSentinel) : EnTransition p b u u .none
  | hdrByte (hs : u.state = .accumulatingHeader) (h : u.hdrCount < 18) (hn : u.hdrCount + 1 ≠ 18) :
      EnTransition p b u (enAfterHeader b u h) .none
  | hdrBad (hs : u.state = .accumulatingHeader) (h : u.hdrCount < 18) (hn : u.hdrCount + 1 = 18)
      (hc : hdrConsistent p (u.hdr.set u.hdrCount b h) = false) :
      EnTransition p b u { enAfterHeader b u h with state := .idle } (.error .headerCorrupted)
  | hdrOvf (hs : u.state = .accumulatingHeader) (h : u.hdrCount < 18) (hn : u.hdrCount + 1 = 18)
      (hc : hdrConsistent p (u.hdr.set u.hdrCount b h) = true)
      (ht : (p.enCap : Int) < hdrTw p (u.hdr.set u.hdrCount b h)) :
      EnTransition p b u { enAfterHeader b u h with state := .idle } (.error .bufferOverflow)
  | hdrOk (hs : u.state = .accumulatingHeader) (h : u.hdrCount < 18) (hn : u.hdrCount + 1 = 18)
      (hc : hdrConsistent p (u.hdr.set u.hdrCount b h) = true)
      (ht : hdrTw p (u.hdr.set u.hdrCount b h) ≤ p.enCap) :
      EnTransition p b u { enAfterHeader b u h with state := .accumulatingTelegram } .none
  | ctByte (hs : u.state = .accumulatingTelegram) (hn : u.hdrCount = 18) (hl : u.ctLen < p.enCap)
      (ht : (u.ctLen : Int) + 1 < hdrTw p u.hdr) : EnTransition p b u (enAfterCipher b u) .none
  | setKeyFailed (hs : u.state = .accumulatingTelegram) (hn : u.hdrCount = 18) (hl : u.ctLen < p.enCap)
      (ht : hdrTw p u.hdr ≤ (u.ctLen : Int) + 1) (hk : u.keyLoaded = true) (ha : aeadSetkey p u.key = false) :
      EnTransition p b u { enAfterCipher b u with state := .idle } (.error .failedToSetEncryptionKey)
  | decryptFailed (q : AeadQuery) (hs : u.state = .accumulatingTelegram) (hn : u.hdrCount = 18)
      (hl : u.ctLen < p.enCap) (ht : hdrTw p u.hdr ≤ (u.ctLen : Int) + 1) (hk : u.keyLoaded = true)
      (ha : aeadSetkey p u.key = true) (hq : enQuery p { enAfterCipher b u with state := .idle } = .ok q)
      (hd : aeadDecrypt p q = none) :
      EnTransition p b u { enAfterCipher b u with state := .idle } (.error .decryptionFailed)
  | delivered (q : AeadQuery) (plain : List Byte) (hs : u.state = .accumulatingTelegram) (hn : u.hdrCount = 18)
      (hl : u.ctLen < p.enCap) (ht : hdrTw p u.hdr ≤ (u.ctLen : Int) + 1) (hk : u.keyLoaded = true)
      (ha : aeadSetkey p u.key = true) (hq : enQuery p { enAfterCipher b u with state := .idle } = .ok q)
      (hd : aeadDecrypt p q = some plain) (hlen : plain.length = q.ct.length) (hcap : plain.length ≤ p.enCap) :
      EnTransition p b u
        { enAfterCipher b u with state := .idle, pt := bufWriteRange u.pt 0 plain } (.packet plain)

/-- A read of header fields succeeds exactly on 18 bytes (R154). -/
theorem hdrField_ok {α : Type} (u : EnUnit) (f : Header → α) (x : α) (h : hdrField u f = .ok x) :
    u.hdrCount = 18 ∧ x = f u.hdr := by
  simp only [hdrField, hdrComplete, decide_eq_true_eq] at h
  split_ifs at h with hc
  simp only [Except.ok.injEq] at h
  exact ⟨hc, h.symm⟩

theorem hdrField_full {α : Type} (u : EnUnit) (f : Header → α) (h : u.hdrCount = 18) :
    hdrField u f = .ok (f u.hdr) := by simp [hdrField, hdrComplete, h]

/-- `HDR_ADD_BYTE` succeeds exactly below 18 bytes (R152). -/
theorem hdrAddByte_ok (b : Byte) (u v : EnUnit) (h : hdrAddByte b u = .ok v) :
    ∃ hc : u.hdrCount < 18, v = enAfterHeader b u hc := by
  simp only [hdrAddByte] at h
  split_ifs at h with hc
  simp only [Except.ok.injEq] at h
  exact ⟨hc, h.symm⟩

theorem hdrAddByte_room (b : Byte) (u : EnUnit) (h : u.hdrCount < 18) :
    hdrAddByte b u = .ok (enAfterHeader b u h) := by simp [hdrAddByte, h]

/-- Everything the checked `AEAD_DECRYPT` call answers (R183). -/
theorem aeadCall_ok (p : Params) (q : AeadQuery) (r : Option (List Byte)) (h : aeadCall p q = .ok r) :
    aeadDecrypt p q = r ∧ ∀ l, r = some l → l.length = q.ct.length := by
  simp only [aeadCall] at h
  split at h
  · rename_i hd
    simp only [Except.ok.injEq] at h
    subst h
    exact ⟨hd, by simp⟩
  · rename_i l hd
    split_ifs at h with hl
    simp only [Except.ok.injEq] at h
    subst h
    exact ⟨hd, by simpa using hl⟩

/-- A write of one byte with room succeeds. -/
theorem memWrite_one (cap : Nat) (m m' : Buf) (i : Nat) (b : Byte) (h : memWrite cap m i [b] = .ok m') :
    i < cap ∧ m' = bufWrite m i b := by
  obtain ⟨hc, rfl⟩ := memWrite_ok _ _ _ _ _ h
  exact ⟨by simpa using hc, rfl⟩

/-- Everything E_CT_DONE can do when it answers (R258). -/
theorem eCtDone_cases (p : Params) (u v : EnUnit) (r : Response) (h : eCtDone p u = .ok (v, r)) :
    u.keyLoaded = true ∧
    ((aeadSetkey p u.key = false ∧ v = { u with state := .idle } ∧ r = .error .failedToSetEncryptionKey) ∨
     (∃ q, aeadSetkey p u.key = true ∧ enQuery p { u with state := .idle } = .ok q ∧ aeadDecrypt p q = none ∧
        v = { u with state := .idle } ∧ r = .error .decryptionFailed) ∨
     (∃ q plain, aeadSetkey p u.key = true ∧ enQuery p { u with state := .idle } = .ok q ∧
        aeadDecrypt p q = some plain ∧ plain.length = q.ct.length ∧ plain.length ≤ p.enCap ∧
        v = { u with state := .idle, pt := bufWriteRange u.pt 0 plain } ∧ r = .packet plain)) := by
  simp only [eCtDone] at h
  split_ifs at h with hk ha
  · refine ⟨by simpa using hk, .inl ?_⟩
    simp only [raiseError, Except.ok.injEq, Prod.mk.injEq] at h
    exact ⟨ha, h.1.symm, h.2.symm⟩
  · refine ⟨by simpa using hk, .inr ?_⟩
    have ha' : aeadSetkey p u.key = true := by simpa using ha
    simp only [bind, Except.bind] at h
    split at h
    · simp at h
    rename_i q hq
    split at h
    · simp at h
    rename_i r' hr'
    obtain ⟨hd, hlen⟩ := aeadCall_ok _ _ _ hr'
    split at h
    · simp only [raiseError, Except.ok.injEq, Prod.mk.injEq] at h
      exact .inl ⟨q, ha', hq, hd, h.1.symm, h.2.symm⟩
    · rename_i plain
      have hlen' := hlen plain rfl
      split at h
      · simp at h
      rename_i pt hpt
      obtain ⟨hcap, rfl⟩ := memWrite_ok _ _ _ _ _ hpt
      have hread := bufReadRange_bufWriteRange u.pt 0 plain
      have hmem := memRead_inside p.enCap _ 0 plain.length plain hcap hread
      simp only [hmem, respondPacket, Except.ok.injEq, Prod.mk.injEq] at h
      exact .inr ⟨q, plain, ha', hq, hd, hlen', by simpa using hcap, h.1.symm, h.2.symm⟩

/-- Everything `EN_PROCESS_BYTE` can do when it answers. -/
theorem enStep_transition (p : Params) (b : Byte) (u v : EnUnit) (r : Response) (h : enStep p b u = .ok (v, r)) :
    EnTransition p b u v r := by
  unfold enStep at h
  split at h
  · rename_i hs
    simp only [enIsSof, decide_eq_true_eq] at h
    split_ifs at h with hb
    · have hc : ({ hdrReset u with ctLen := 0 } : EnUnit).hdrCount < 18 := by simp [hdrReset]
      simp only [eSof, hdrAddByte_room _ _ hc, bind, Except.bind, respondNone, Except.ok.injEq, Prod.mk.injEq] at h
      obtain ⟨rfl, rfl⟩ := h
      exact .sof hs hb
    · simp only [eIdle, respondNone, Except.ok.injEq, Prod.mk.injEq] at h
      obtain ⟨rfl, rfl⟩ := h
      exact .idle hs hb
  · rename_i hs
    simp only [eHdrByte, bind, Except.bind] at h
    split at h
    · simp at h
    rename_i w hw
    obtain ⟨hc, rfl⟩ := hdrAddByte_ok _ _ _ hw
    split_ifs at h with hcomp
    · have hn : u.hdrCount + 1 = 18 := by simpa [hdrComplete] using hcomp
      rw [hdrField_full _ _ hn, hdrField_full _ _ hn] at h
      simp only at h
      split_ifs at h with hcons hov
      · simp only [eHdrOvf, raiseError, Except.ok.injEq, Prod.mk.injEq] at h
        obtain ⟨rfl, rfl⟩ := h
        exact .hdrOvf hs hc hn hcons hov
      · simp only [eHdrOk, respondNone, Except.ok.injEq, Prod.mk.injEq] at h
        obtain ⟨rfl, rfl⟩ := h
        exact .hdrOk hs hc hn hcons (by simpa using hov)
      · simp only [eHdrBad, raiseError, Except.ok.injEq, Prod.mk.injEq] at h
        obtain ⟨rfl, rfl⟩ := h
        exact .hdrBad hs hc hn (by simpa using hcons)
    · have hn : u.hdrCount + 1 ≠ 18 := by simpa [hdrComplete] using hcomp
      simp only [respondNone, Except.ok.injEq, Prod.mk.injEq] at h
      obtain ⟨rfl, rfl⟩ := h
      exact .hdrByte hs hc hn
  · rename_i hs
    simp only [eCtByte, bind, Except.bind] at h
    split at h
    · simp at h
    rename_i ct hct
    obtain ⟨hl, rfl⟩ := memWrite_one _ _ _ _ _ hct
    split at h
    · simp at h
    rename_i tw htw
    obtain ⟨hn, rfl⟩ := hdrField_ok _ _ _ htw
    simp only at hn h
    split_ifs at h with ht
    · simp only [respondNone, Except.ok.injEq, Prod.mk.injEq] at h
      obtain ⟨rfl, rfl⟩ := h
      exact .ctByte hs hn hl (by simpa using ht)
    · have ht' : hdrTw p u.hdr ≤ (u.ctLen : Int) + 1 := by simpa using ht
      obtain ⟨hk, ⟨ha, rfl, rfl⟩ | ⟨q, ha, hq, hd, rfl, rfl⟩ | ⟨q, plain, ha, hq, hd, hlen, hcap, rfl, rfl⟩⟩ :=
        eCtDone_cases _ _ _ _ h
      · exact .setKeyFailed hs hn hl ht' hk ha
      · exact .decryptFailed q hs hn hl ht' hk ha hq hd
      · exact .delivered q plain hs hn hl ht' hk ha hq hd hlen hcap
  · simp at h

/-! ### A whole frame's AEAD call -/

/-- The nonce as slices of the header (R63). -/
theorem hdrNonceBytes_eq (h : Header) : hdrNonceBytes h = (h.toList.drop 2).take 8 ++ h.toList.drop 14 := by
  apply List.ext_getElem
  · simp [hdrNonceBytes, hdrSystemTitle, hdrCounterBytes]
  · intro i h1 h2
    have : i < 12 := by simpa [hdrNonceBytes, hdrSystemTitle, hdrCounterBytes] using h1
    interval_cases i <;> simp [hdrNonceBytes, hdrSystemTitle, hdrCounterBytes]

/-- The operands at completion are those of the whole frame (R184). -/
theorem enQuery_frame (p : Params) (u : EnUnit) (l : List Byte) (hn : u.hdrCount = 18)
    (htw : (l.length : Int) = hdrTw p u.hdr) (h12 : 12 ≤ l.length) (hcap : l.length ≤ p.enCap)
    (hr : bufReadRange u.ct 0 l.length = some l) : enQuery p u = .ok (frameQuery u l) := by
  have e1 : (hdrTw p u.hdr - 12).toNat = l.length - 12 := by omega
  have r1 := memRead_inside p.enCap u.ct 0 (l.length - 12) _ (by omega)
    (bufReadRange_take _ _ _ _ (l.length - 12) hr (by omega))
  have r2 := memRead_inside p.enCap u.ct (l.length - 12) 12 (l.drop (l.length - 12)) (by omega) (by
    have := bufReadRange_drop _ _ _ _ (l.length - 12) hr (by omega)
    rwa [show 0 + (l.length - 12) = l.length - 12 by omega,
      show l.length - (l.length - 12) = 12 by omega] at this)
  have : ¬ hdrTw p u.hdr < 12 := by omega
  simp [enQuery, hdrField_full _ _ hn, bind, Except.bind, this, e1, r1, r2, pure, Except.pure, frameQuery,
    hdrNonceBytes_eq, aad, authenticationKey]

theorem lookup_mem {α β : Type} [DecidableEq α] (l : List (α × β)) (a : α) (b : β) (h : l.lookup a = some b) :
    (a, b) ∈ l := by
  induction l with
  | nil => simp at h
  | cons x l ih =>
    obtain ⟨c, d⟩ := x
    simp only [List.lookup] at h
    split at h
    · rename_i he
      simp only [beq_iff_eq, Option.some.injEq] at he h
      subst he; subst h; simp
    · exact List.mem_cons_of_mem _ (ih h)

/-- A well-typed oracle answers with the ciphertext's length (D32). -/
theorem aeadDecrypt_length (p : Params) (q : AeadQuery) (l : List Byte) (ht : oracleTyped p = true)
    (h : aeadDecrypt p q = some l) : l.length = q.ct.length := by
  unfold aeadDecrypt at h
  split at h
  · rename_i r hr
    have hm := lookup_mem _ _ _ hr
    simp only [oracleTyped, List.all_eq_true] at ht
    have := ht _ hm
    simp only [h] at this
    simpa using this
  · split at h <;> simp only [Option.some.injEq, reduceCtorEq] at h
    rw [← h]; simp

/-- What a frame's completion answers once the key is accepted and the call is made (R258). -/
theorem eCtDone_called (p : Params) (u : EnUnit) (q : AeadQuery) (hk : u.keyLoaded = true)
    (ha : aeadSetkey p u.key = true) (hq : enQuery p { u with state := .idle } = .ok q) :
    eCtDone p u =
      match aeadDecrypt p q with
      | none => .ok ({ u with state := .idle }, .error .decryptionFailed)
      | some plain =>
        if plain.length ≠ q.ct.length then .error .aeadLength
        else if p.enCap < plain.length then .error .bufferBounds
        else .ok ({ u with state := .idle, pt := bufWriteRange u.pt 0 plain }, .packet plain) := by
  simp only [eCtDone]
  rw [if_neg (by simp [hk]), if_neg (by simp [ha]), hq]
  simp only [bind, Except.bind, aeadCall]
  cases aeadDecrypt p q with
  | none => rfl
  | some plain =>
    by_cases hl : plain.length = q.ct.length
    · by_cases hc : plain.length ≤ p.enCap
      · have hw := memWrite_inside p.enCap u.pt 0 plain (by omega)
        have hr := memRead_inside p.enCap _ 0 plain.length plain (by omega) (bufReadRange_bufWriteRange u.pt 0 plain)
        have hr' : memRead p.enCap (bufWriteRange u.pt 0 plain) 0 q.ct.length = .ok plain := by rw [← hl]; exact hr
        simp [hl, hw, hr', respondPacket, show ¬ p.enCap < q.ct.length by omega]
      · have hw : memWrite p.enCap u.pt 0 plain = .error .bufferBounds := by simp [memWrite, hc]
        simp [hl, hw, show p.enCap < q.ct.length by omega]
    · simp [hl]

/-- The last byte of a frame is stored, and then the frame completes (R257, R258). -/
theorem eCtByte_last (p : Params) (b : Byte) (u : EnUnit) (hn : u.hdrCount = 18) (hl : u.ctLen < p.enCap)
    (ht : hdrTw p u.hdr ≤ (u.ctLen : Int) + 1) : eCtByte p b u = eCtDone p (enAfterCipher b u) := by
  have hm : memWrite p.enCap u.ct u.ctLen [b] = .ok (bufWrite u.ct u.ctLen b) := memWrite_inside _ _ _ _ (by simp; omega)
  have hf := hdrField_full (enAfterCipher b u) (hdrTw p) hn
  simp only [eCtByte, hm, bind, Except.bind]
  simp only [enAfterCipher] at hf
  rw [hf]
  simp [show ¬ ((u.ctLen : Int) + 1 < hdrTw p u.hdr) by omega]

end Sys2Proof.Machine
end

