-- ==== Sys2Proof/Laws/KeyCodec.lean ====
section
/-! SUPPORT. What `KEY_DECODE` answers, case by case (41_key_codec.md R131). -/

namespace Sys2Proof.Machine

theorem keyDecode_length {s : List Byte} (h : s.length ≠ 32) : keyDecode s = .error .keyLengthInvalid := by
  simp [keyDecode, h]

theorem keyDecode_notHex {s : List Byte} (h : s.length = 32) (hx : ∃ c ∈ s, hexval c = none) :
    keyDecode s = .error .keyNotHex := by
  obtain ⟨c, hc, hn⟩ := hx
  have : ¬ (s.all fun c => (hexval c).isSome) = true := by
    simp only [List.all_eq_true, not_forall]
    exact ⟨c, hc, by simp [hn]⟩
  simp only [keyDecode, h, this, dif_pos]
  rfl

theorem keyDecode_hex {s : List Byte} (h : s.length = 32) (hx : ∀ c ∈ s, hexval c ≠ none) :
    keyDecode s = .ok (keyBytes s h) := by
  have : (s.all fun c => (hexval c).isSome) = true := by
    simp only [List.all_eq_true]
    exact fun c hc => Option.isSome_iff_ne_none.2 (hx c hc)
  simp only [keyDecode, h, this, dif_pos, if_true]

/-- A pair of digits as a number. -/
theorem hexPair_toNat (x y : Nibble) : (hexPair x y).toNat = x.toNat * 16 + y.toNat := by
  have := y.isLt
  rw [hexPair, BitVec.toNat_append, ← Nat.shiftLeft_add_eq_or_of_lt this, Nat.shiftLeft_eq]

end Sys2Proof.Machine
end

