-- ==== Sys2Proof/Laws/PerInstr.lean ====
section
/-! SUPPORT. Statements about every instruction as text: the command word's two fields (30_encoding.md R80, R81). -/

namespace Sys2Proof.Laws.OpCode

/-- The operation code and data byte of a host operation (R81); an internal operation has none. -/
def fields : Instr → Option (BitVec 4 × Byte)
  | .ptProcessByte b => some (0x0#4, b)
  | .ptReset => some (0x1#4, 0x00#8)
  | .enProcessByte b => some (0x2#4, b)
  | .enReset => some (0x3#4, 0x00#8)
  | .enSetKey _ => some (0x4#4, 0x00#8)
  | .crc16Compute _ => some (0x5#4, 0x00#8)
  | .crc16Step _ _ | .hexNibble _ | .keyDecode _ | .hdrReset | .hdrAddByte _ | .hdrIsComplete
  | .hdrTelegramWithTagLength | .hdrCheckConsistency | .hdrNonce | .aeadSetKey _ | .aeadDecrypt _ _ _ _ _ => none

/-- The encoder's command word holds the two fields of R81, and exactly the host operations have one. -/
def Statement (i : Instr) : Prop :=
  (encode i).map (fun t => (opField t.cmd, dataField t.cmd)) = fields i ∧ (encode i).isSome = i.isHost

/-- The two fields of a built command word. -/
theorem fields_cmdWord (op : BitVec 4) (b : Byte) : opField (cmdWord op b) = op ∧ dataField (cmdWord op b) = b := by
  constructor
  · apply BitVec.eq_of_getLsbD_eq
    intro i hi
    simp only [opField, cmdWord, BitVec.getLsbD_extractLsb', BitVec.getLsbD_append]
    simp [hi]
  · apply BitVec.eq_of_getLsbD_eq
    intro i hi
    simp only [dataField, cmdWord, BitVec.getLsbD_extractLsb', BitVec.getLsbD_append]
    simp [hi]

theorem ptProcessByte (b : Byte) : Statement (.ptProcessByte b) := by
  simp [Statement, encode, fields, Instr.isHost, fields_cmdWord]
theorem ptReset : Statement .ptReset := by simp [Statement, encode, fields, Instr.isHost, fields_cmdWord]
theorem enProcessByte (b : Byte) : Statement (.enProcessByte b) := by
  simp [Statement, encode, fields, Instr.isHost, fields_cmdWord]
theorem enReset : Statement .enReset := by simp [Statement, encode, fields, Instr.isHost, fields_cmdWord]
theorem enSetKey (str : List Byte) : Statement (.enSetKey str) := by
  simp [Statement, encode, fields, Instr.isHost, fields_cmdWord]
theorem crc16Compute (str : List Byte) : Statement (.crc16Compute str) := by
  simp [Statement, encode, fields, Instr.isHost, fields_cmdWord]
theorem crc16Step (crc : Word) (b : Byte) : Statement (.crc16Step crc b) := ⟨rfl, rfl⟩
theorem hexNibble (c : Byte) : Statement (.hexNibble c) := ⟨rfl, rfl⟩
theorem keyDecode (str : List Byte) : Statement (.keyDecode str) := ⟨rfl, rfl⟩
theorem hdrReset : Statement .hdrReset := ⟨rfl, rfl⟩
theorem hdrAddByte (b : Byte) : Statement (.hdrAddByte b) := ⟨rfl, rfl⟩
theorem hdrIsComplete : Statement .hdrIsComplete := ⟨rfl, rfl⟩
theorem hdrTelegramWithTagLength : Statement .hdrTelegramWithTagLength := ⟨rfl, rfl⟩
theorem hdrCheckConsistency : Statement .hdrCheckConsistency := ⟨rfl, rfl⟩
theorem hdrNonce : Statement .hdrNonce := ⟨rfl, rfl⟩
theorem aeadSetKey (key : Key) : Statement (.aeadSetKey key) := ⟨rfl, rfl⟩
theorem aeadDecrypt (key : Key) (nonce aad ct tag : List Byte) : Statement (.aeadDecrypt key nonce aad ct tag) :=
  ⟨rfl, rfl⟩

end Sys2Proof.Laws.OpCode
end

