-- ==== Sys2Proof/Laws/PtUnit.lean ====
section
/-! SUPPORT. What the PT unit's operations can do, once: `PtTransition` lists the ten transitions of 44_plaintext_sync.md
R211 to R220 with their conditions and effects, and `ptStep_transition` says that `PT_PROCESS_BYTE` is one of them
whenever it answers. -/

namespace Sys2Proof.Machine

/-- The transitions of the PT unit: condition, unit after, response. -/
inductive PtTransition (p : Params) (b : Byte) (u : PtUnit) : PtUnit → Response → Prop where
  | sof (hb : b = slash) (hc : 1 ≤ p.ptCap) :
      PtTransition p b u { u with buf := bufWrite u.buf 0 slash, len := 1, state := .inFrame }
        (if u.state = .inFrame ∨ u.state = .inCrc then .error .packetStartSymbolInPacket else .none)
  | ovf (hb : b ≠ slash) (hl : u.len = p.ptCap) :
      PtTransition p b u { u with state := .idle, len := 0 } (.error .bufferOverflow)
  | idle (hb : b ≠ slash) (hl : u.len ≠ p.ptCap) (hs : u.state = .idle) : PtTransition p b u u .none
  | data (hb : b ≠ slash) (hb' : b ≠ bang) (hl : u.len < p.ptCap) (hs : u.state = .inFrame) :
      PtTransition p b u { u with buf := bufWrite u.buf u.len b, len := u.len + 1 } .none
  | eofNoCrc (bytes : List Byte) (hb : b = bang) (hl : u.len < p.ptCap) (hs : u.state = .inFrame)
      (hc : p.ptCheckCrc = false) (hr : bufReadRange (bufWrite u.buf u.len bang) 0 (u.len + 1) = some bytes) :
      PtTransition p b u
        (ptToIdle p { u with buf := bufWrite u.buf u.len bang, len := u.len + 1 }) (.packet bytes)
  | eofCrc (hb : b = bang) (hl : u.len < p.ptCap) (hs : u.state = .inFrame) (hc : p.ptCheckCrc = true) :
      PtTransition p b u
        { u with
          buf := bufWrite u.buf u.len bang, len := u.len + 1, crcAcc := 0x0000#16, crcNibbles := 0, state := .inCrc }
        .none
  | crcBad (hb : b ≠ slash) (hl : u.len ≠ p.ptCap) (hs : u.state = .inCrc) (hx : hexval b = none) :
      PtTransition p b u (ptToIdle p u) (.error .incorrectCrcCharacter)
  | crcDigit (d : Nibble) (hb : b ≠ slash) (hl : u.len ≠ p.ptCap) (hs : u.state = .inCrc) (hx : hexval b = some d)
      (hn : u.crcNibbles + 1 < 4) :
      PtTransition p b u { u with crcAcc := foldNibble u.crcAcc d, crcNibbles := u.crcNibbles + 1 } .none
  | crcOk (d : Nibble) (bytes : List Byte) (hb : b ≠ slash) (hl : u.len < p.ptCap) (hs : u.state = .inCrc)
      (hx : hexval b = some d) (hn : ¬ u.crcNibbles + 1 < 4) (hr : bufReadRange u.buf 0 u.len = some bytes)
      (he : foldNibble u.crcAcc d = crc16 bytes) :
      PtTransition p b u
        (ptToIdle p { u with crcAcc := foldNibble u.crcAcc d, crcNibbles := u.crcNibbles + 1 }) (.packet bytes)
  | crcMismatch (d : Nibble) (bytes : List Byte) (hb : b ≠ slash) (hl : u.len < p.ptCap) (hs : u.state = .inCrc)
      (hx : hexval b = some d) (hn : ¬ u.crcNibbles + 1 < 4) (hr : bufReadRange u.buf 0 u.len = some bytes)
      (he : foldNibble u.crcAcc d ≠ crc16 bytes) :
      PtTransition p b u
        (ptToIdle p { u with crcAcc := foldNibble u.crcAcc d, crcNibbles := u.crcNibbles + 1 }) (.error .crcMismatch)

/-- A successful append writes at index `PT.len`, which is below the capacity. -/
theorem ptAppend_ok (p : Params) (b : Byte) (u v : PtUnit) (h : ptAppend p b u = .ok v) :
    u.len < p.ptCap ∧ v = { u with buf := bufWrite u.buf u.len b, len := u.len + 1 } := by
  rcases memWrite_cases p.ptCap u.buf u.len [b] with ⟨hb, he⟩ | ⟨_, he⟩
  · simp only [ptAppend, he, bind, Except.bind, pure, Except.pure, Except.ok.injEq] at h
    exact ⟨by simpa using hb, h.symm⟩
  · simp [ptAppend, he, bind, Except.bind] at h

/-- An append with room succeeds. -/
theorem ptAppend_room (p : Params) (b : Byte) (u : PtUnit) (h : u.len < p.ptCap) :
    ptAppend p b u = .ok { u with buf := bufWrite u.buf u.len b, len := u.len + 1 } := by
  have : memWrite p.ptCap u.buf u.len [b] = .ok (bufWrite u.buf u.len b) := memWrite_inside _ _ _ _ (by simp; omega)
  simp [ptAppend, this, bind, Except.bind, pure, Except.pure]

/-- The frame collected so far, when it can be read. -/
theorem ptFrame_ok (p : Params) (u : PtUnit) (l : List Byte) (h : ptFrame p u = .ok l) :
    u.len ≤ p.ptCap ∧ bufReadRange u.buf 0 u.len = some l := by simpa using memRead_ok _ _ _ _ _ h

theorem ptFrame_inside (p : Params) (u : PtUnit) (l : List Byte) (h : u.len ≤ p.ptCap)
    (hl : bufReadRange u.buf 0 u.len = some l) : ptFrame p u = .ok l :=
  memRead_inside _ _ _ _ _ (by simpa using h) hl

/-- Everything `PT_PROCESS_BYTE` can do when it answers. -/
theorem ptStep_transition (p : Params) (b : Byte) (u v : PtUnit) (r : Response) (h : ptStep p b u = .ok (v, r)) :
    PtTransition p b u v r := by
  have hd : ptDispatch p b u = .ok (v, r) := by
    unfold ptStep at h
    split at h <;> first | exact h | simp at h
  clear h
  unfold ptDispatch at hd
  by_cases hb : b = slash
  · -- the start sentinel
    rw [if_pos hb] at hd
    rcases memWrite_cases p.ptCap u.buf 0 [slash] with ⟨hc, he⟩ | ⟨_, he⟩
    · simp only [tSof, he, bind, Except.bind] at hd
      have hw : bufWriteRange u.buf 0 [slash] = bufWrite u.buf 0 slash := rfl
      have hc' : 1 ≤ p.ptCap := by simpa using hc
      have hr := PtTransition.sof (u := u) hb hc'
      rw [hw] at hd
      split at hd <;> simp_all [raiseError, respondNone]
    · simp [tSof, he, bind, Except.bind] at hd
  rw [if_neg hb] at hd
  by_cases hf : ptFull p u = true
  · -- a full buffer
    rw [if_pos hf] at hd
    simp only [tOvf, raiseError, Except.ok.injEq, Prod.mk.injEq] at hd
    obtain ⟨rfl, rfl⟩ := hd
    exact .ovf hb (by simpa [ptFull] using hf)
  rw [if_neg hf] at hd
  have hl : u.len ≠ p.ptCap := by simpa [ptFull] using hf
  split at hd
  · rename_i hs
    simp only [tIdle, respondNone, Except.ok.injEq, Prod.mk.injEq] at hd
    obtain ⟨rfl, rfl⟩ := hd
    exact .idle hb hl hs
  · rename_i hs
    split_ifs at hd with h1 hc
    · -- a body byte
      simp only [tData, bind, Except.bind] at hd
      split at hd
      · simp at hd
      · rename_i w hw
        obtain ⟨hlt, rfl⟩ := ptAppend_ok _ _ _ _ hw
        simp only [respondNone, Except.ok.injEq, Prod.mk.injEq] at hd
        obtain ⟨rfl, rfl⟩ := hd
        exact .data hb h1 hlt hs
    · -- the end sentinel, CRC enabled
      simp only [tEofCrc, bind, Except.bind] at hd
      split at hd
      · simp at hd
      · rename_i w hw
        obtain ⟨hlt, rfl⟩ := ptAppend_ok _ _ _ _ hw
        simp only [respondNone, Except.ok.injEq, Prod.mk.injEq] at hd
        obtain ⟨rfl, rfl⟩ := hd
        exact .eofCrc (by simpa using h1) hlt hs hc
    · -- the end sentinel, CRC disabled
      simp only [tEofNoCrc, bind, Except.bind] at hd
      split at hd
      · simp at hd
      · rename_i w hw
        obtain ⟨hlt, rfl⟩ := ptAppend_ok _ _ _ _ hw
        split at hd
        · simp at hd
        · rename_i l hl'
          obtain ⟨_, hread⟩ := ptFrame_ok _ _ _ hl'
          simp only [respondPacket, Except.ok.injEq, Prod.mk.injEq] at hd
          obtain ⟨rfl, rfl⟩ := hd
          exact .eofNoCrc l (by simpa using h1) hlt hs (by simpa using hc) hread
  · rename_i hs
    split at hd
    · rename_i hx
      simp only [tCrcBad, raiseError, Except.ok.injEq, Prod.mk.injEq] at hd
      obtain ⟨rfl, rfl⟩ := hd
      exact .crcBad hb hl hs hx
    · rename_i d hx
      simp only [tCrcDigit] at hd
      split_ifs at hd with hn
      · simp only [respondNone, Except.ok.injEq, Prod.mk.injEq] at hd
        obtain ⟨rfl, rfl⟩ := hd
        exact .crcDigit d hb hl hs hx hn
      · simp only [bind, Except.bind] at hd
        split at hd
        · simp at hd
        · rename_i l hl'
          obtain ⟨hle, hread⟩ := ptFrame_ok _ _ _ hl'
          simp only at hle hread
          split_ifs at hd with he
          · simp only [tCrcOk, bind, Except.bind, hl', respondPacket, Except.ok.injEq, Prod.mk.injEq] at hd
            obtain ⟨rfl, rfl⟩ := hd
            exact .crcOk d l hb (by omega) hs hx hn hread he
          · simp only [tCrcMismatch, raiseError, Except.ok.injEq, Prod.mk.injEq] at hd
            obtain ⟨rfl, rfl⟩ := hd
            exact .crcMismatch d l hb (by omega) hs hx hn hread he
  · simp at hd

/-! ### The unit's registers and invariant -/

/-- The frame after one byte more. -/
theorem ptFrame_snoc (p : Params) (u : PtUnit) (b : Byte) (l : List Byte) (hl : u.len < p.ptCap)
    (hr : bufReadRange u.buf 0 u.len = some l) :
    ptFrame p { u with buf := bufWrite u.buf u.len b, len := u.len + 1 } = .ok (l ++ [b]) :=
  ptFrame_inside p _ _ (by simpa using hl) (bufReadRange_snoc _ _ _ _ hr)

/-- The trailer's fold as arithmetic (R93): the leading digit falls out. -/
theorem foldNibble_toNat (a : Word) (d : Nibble) : (foldNibble a d).toNat = (a.toNat * 16 + d.toNat) % 65536 := by
  have hd := d.isLt
  have e : foldNibble a d = (a.setWidth 12 ++ d : BitVec 16) := by
    apply BitVec.eq_of_getLsbD_eq
    intro i hi
    simp only [foldNibble, BitVec.getLsbD_or, BitVec.getLsbD_shiftLeft, BitVec.getLsbD_setWidth,
      BitVec.getLsbD_append]
    by_cases h : i < 4
    · simp [h]; omega
    · have : d.getLsbD i = false := BitVec.getLsbD_of_ge _ _ (by omega)
      simp [h, this, hi, show i - 4 < 12 by omega]
  rw [e, BitVec.toNat_append, ← Nat.shiftLeft_add_eq_or_of_lt hd, Nat.shiftLeft_eq]
  simp; omega

/-- An append keeps a buffer's invariant. -/
theorem bufInv_snoc {cap : Nat} {m : Buf} {len : Nat} {b : Byte} (h : bufInv cap m len) (hl : len < cap) :
    bufInv cap (bufWrite m len b) (len + 1) := by
  obtain ⟨h1, h2, h3, h4⟩ := h
  refine ⟨bufWrite_wf _ _ _ h1, bufWrite_within _ _ _ _ h2 hl, by omega, fun i hi => ?_⟩
  rw [bufRead_bufWrite]
  split_ifs with he
  · rfl
  · exact h4 i (by omega)

/-- Clearing the length keeps a buffer's invariant. -/
theorem bufInv_zero {cap : Nat} {m : Buf} {len : Nat} (h : bufInv cap m len) : bufInv cap m 0 :=
  ⟨h.1, h.2.1, by omega, by simp⟩

/-- A packet's write keeps the plaintext buffer's invariant. -/
theorem bufInv_range {cap : Nat} {m : Buf} {len : Nat} {l : List Byte} (h : bufInv cap m len)
    (hl : l.length ≤ cap) : bufInv cap (bufWriteRange m 0 l) 0 :=
  ⟨bufWriteRange_wf _ _ _ h.1, bufWriteRange_within _ _ _ _ h.2.1 (by omega), by omega, by simp⟩

/-- The bytes a buffer's length covers can be read. -/
theorem bufInv_read {cap : Nat} {m : Buf} {len : Nat} (h : bufInv cap m len) :
    ∃ l, bufReadRange m 0 len = some l :=
  bufReadRange_isSome _ _ _ fun j hj => by rw [Nat.zero_add]; exact h.2.2.2 j hj

/-- The return to `Idle` at the end of a frame keeps the invariant (R226). -/
theorem ptToIdle_inv {p : Params} {u : PtUnit} (hp : paramsLegal p) (hb : bufInv p.ptCap u.buf u.len)
    (hn : u.crcNibbles ≤ 4) (hc : p.ptCheckCrc = true → u.len < p.ptCap) : PtInv p (ptToIdle p u) := by
  refine ⟨hp, ?_, hn, ?_⟩
  · simp only [ptToIdle]
    split_ifs
    · exact bufInv_zero hb
    · exact hb
  · refine decide_eq_true (p := ptIdleInv p (ptToIdle p u)) ⟨fun h => by simp [ptToIdle, h], fun h => ?_⟩
    simp only [ptToIdle]
    split_ifs
    · exact hp
    · exact hc h

end Sys2Proof.Machine
end

