-- ==== Sys2Proof/Laws/State.lean ====
section
/-! SUPPORT. The small lemmas of the state: one per field per update, and what the operations that apply a unit's step
to the state answer. -/

namespace Sys2Proof.Machine

/-! ### Construction -/

@[simp] theorem construct_params (p : Params) : (State.construct p).params = p := rfl
@[simp] theorem construct_pt (p : Params) : (State.construct p).pt = PtUnit.init := rfl
@[simp] theorem construct_en (p : Params) : (State.construct p).en = EnUnit.init := rfl
@[simp] theorem construct_pending (p : Params) : (State.construct p).pending = [] := rfl
@[simp] theorem construct_resp (p : Params) : (State.construct p).resp = .none := rfl
@[simp] theorem construct_ret (p : Params) : (State.construct p).ret = .none := rfl

/-! ### The PT unit's updates -/

@[simp] theorem ptToIdle_state (p : Params) (u : PtUnit) : (ptToIdle p u).state = .idle := rfl
@[simp] theorem ptToIdle_buf (p : Params) (u : PtUnit) : (ptToIdle p u).buf = u.buf := rfl
@[simp] theorem ptToIdle_len (p : Params) (u : PtUnit) :
    (ptToIdle p u).len = if p.ptClearOnIdle then 0 else u.len := rfl
@[simp] theorem ptToIdle_crcAcc (p : Params) (u : PtUnit) : (ptToIdle p u).crcAcc = u.crcAcc := rfl
@[simp] theorem ptToIdle_crcNibbles (p : Params) (u : PtUnit) : (ptToIdle p u).crcNibbles = u.crcNibbles := rfl

@[simp] theorem ptReset_state (u : PtUnit) : (ptReset u).state = .idle := rfl
@[simp] theorem ptReset_buf (u : PtUnit) : (ptReset u).buf = u.buf := rfl
@[simp] theorem ptReset_len (u : PtUnit) : (ptReset u).len = 0 := rfl
@[simp] theorem ptReset_crcAcc (u : PtUnit) : (ptReset u).crcAcc = 0x0000#16 := rfl
@[simp] theorem ptReset_crcNibbles (u : PtUnit) : (ptReset u).crcNibbles = 0 := rfl

/-! ### The EN unit's updates -/

@[simp] theorem hdrReset_state (u : EnUnit) : (hdrReset u).state = u.state := rfl
@[simp] theorem hdrReset_hdr (u : EnUnit) : (hdrReset u).hdr = u.hdr := rfl
@[simp] theorem hdrReset_hdrCount (u : EnUnit) : (hdrReset u).hdrCount = 0 := rfl
@[simp] theorem hdrReset_ct (u : EnUnit) : (hdrReset u).ct = u.ct := rfl
@[simp] theorem hdrReset_ctLen (u : EnUnit) : (hdrReset u).ctLen = u.ctLen := rfl
@[simp] theorem hdrReset_pt (u : EnUnit) : (hdrReset u).pt = u.pt := rfl
@[simp] theorem hdrReset_key (u : EnUnit) : (hdrReset u).key = u.key := rfl
@[simp] theorem hdrReset_keyLoaded (u : EnUnit) : (hdrReset u).keyLoaded = u.keyLoaded := rfl

@[simp] theorem enReset_state (u : EnUnit) : (enReset u).state = .idle := rfl
@[simp] theorem enReset_hdr (u : EnUnit) : (enReset u).hdr = u.hdr := rfl
@[simp] theorem enReset_hdrCount (u : EnUnit) : (enReset u).hdrCount = 0 := rfl
@[simp] theorem enReset_ct (u : EnUnit) : (enReset u).ct = u.ct := rfl
@[simp] theorem enReset_ctLen (u : EnUnit) : (enReset u).ctLen = 0 := rfl
@[simp] theorem enReset_pt (u : EnUnit) : (enReset u).pt = u.pt := rfl
@[simp] theorem enReset_key (u : EnUnit) : (enReset u).key = u.key := rfl
@[simp] theorem enReset_keyLoaded (u : EnUnit) : (enReset u).keyLoaded = u.keyLoaded := rfl

/-! ### The host side -/

@[simp] theorem placeNext_pending (s : State) (t : Transaction) : (placeNext s t).pending = t :: s.pending := rfl
@[simp] theorem placeNext_params (s : State) (t : Transaction) : (placeNext s t).params = s.params := rfl
@[simp] theorem placeNext_pt (s : State) (t : Transaction) : (placeNext s t).pt = s.pt := rfl
@[simp] theorem placeNext_en (s : State) (t : Transaction) : (placeNext s t).en = s.en := rfl
@[simp] theorem placeNext_resp (s : State) (t : Transaction) : (placeNext s t).resp = s.resp := rfl
@[simp] theorem placeNext_ret (s : State) (t : Transaction) : (placeNext s t).ret = s.ret := rfl

@[simp] theorem issue_pending (s : State) (t : Transaction) : (issue s t).pending = s.pending ++ [t] := rfl
@[simp] theorem issue_params (s : State) (t : Transaction) : (issue s t).params = s.params := rfl
@[simp] theorem issue_pt (s : State) (t : Transaction) : (issue s t).pt = s.pt := rfl
@[simp] theorem issue_en (s : State) (t : Transaction) : (issue s t).en = s.en := rfl
@[simp] theorem issue_resp (s : State) (t : Transaction) : (issue s t).resp = s.resp := rfl
@[simp] theorem issue_ret (s : State) (t : Transaction) : (issue s t).ret = s.ret := rfl

/-! ### What the operations over the whole state answer -/

@[simp] theorem onPt_ok (s : State) (u : PtUnit) (r : Response) :
    onPt s (.ok (u, r)) = .next { s with pt := u, resp := r } := rfl
@[simp] theorem onPt_error (s : State) (f : Fault) : onPt s (.error f) = .fault f := rfl
@[simp] theorem onEn_ok (s : State) (u : EnUnit) (r : Response) :
    onEn s (.ok (u, r)) = .next { s with en := u, resp := r } := rfl
@[simp] theorem onEn_error (s : State) (f : Fault) : onEn s (.error f) = .fault f := rfl
@[simp] theorem updateEn_ok (s : State) (u : EnUnit) : updateEn s (.ok u) = .next { s with en := u } := rfl
@[simp] theorem updateEn_error (s : State) (f : Fault) : updateEn s (.error f) = .fault f := rfl
@[simp] theorem returnOrFault_ok (s : State) (v : OpResult) : returnOrFault s (.ok v) = .next { s with ret := v } := rfl
@[simp] theorem returnOrFault_error (s : State) (f : Fault) : returnOrFault s (.error f) = .fault f := rfl

/-- A PT transaction that answers has changed the PT unit and the response only. -/
theorem onPt_next (s t : State) (r : PtOut) (h : onPt s r = .next t) :
    ∃ u resp, r = .ok (u, resp) ∧ t = { s with pt := u, resp := resp } := by
  cases r with
  | error f => simp at h
  | ok x =>
    obtain ⟨u, resp⟩ := x
    simp only [onPt_ok, Host.Outcome.next.injEq] at h
    exact ⟨u, resp, rfl, h.symm⟩

/-- An EN transaction that answers has changed the EN unit and the response only. -/
theorem onEn_next (s t : State) (r : EnOut) (h : onEn s r = .next t) :
    ∃ u resp, r = .ok (u, resp) ∧ t = { s with en := u, resp := resp } := by
  cases r with
  | error f => simp at h
  | ok x =>
    obtain ⟨u, resp⟩ := x
    simp only [onEn_ok, Host.Outcome.next.injEq] at h
    exact ⟨u, resp, rfl, h.symm⟩

/-- An internal operation that returns has changed the returned value only. -/
theorem returnOrFault_next (s t : State) (r : Except Fault OpResult) (h : returnOrFault s r = .next t) :
    ∃ v, r = .ok v ∧ t = { s with ret := v } := by
  cases r with
  | error f => simp at h
  | ok v =>
    simp only [returnOrFault_ok, Host.Outcome.next.injEq] at h
    exact ⟨v, rfl, h.symm⟩

/-- An internal operation that writes the EN unit has changed nothing else. -/
theorem updateEn_next (s t : State) (r : Except Fault EnUnit) (h : updateEn s r = .next t) :
    ∃ u, r = .ok u ∧ t = { s with en := u } := by
  cases r with
  | error f => simp at h
  | ok u =>
    simp only [updateEn_ok, Host.Outcome.next.injEq] at h
    exact ⟨u, rfl, h.symm⟩

/-- No transaction on a unit is refused. -/
theorem onPt_not_refused (s : State) (r : PtOut) (x : Refusal) : onPt s r ≠ .refused x := by
  rcases r with f | ⟨u, resp⟩ <;> simp

theorem onEn_not_refused (s : State) (r : EnOut) (x : Refusal) : onEn s r ≠ .refused x := by
  rcases r with f | ⟨u, resp⟩ <;> simp

theorem returnOrFault_not_refused (s : State) (r : Except Fault OpResult) (x : Refusal) :
    returnOrFault s r ≠ .refused x := by cases r <;> simp

theorem updateEn_not_refused (s : State) (r : Except Fault EnUnit) (x : Refusal) : updateEn s r ≠ .refused x := by
  cases r <;> simp

/-! ### The step -/

@[simp] theorem fetch_nil (s : State) (h : s.pending = []) : fetch s = none := by simp [fetch, h]

@[simp] theorem fetch_cons (s : State) (t : Transaction) (rest : List Transaction) (h : s.pending = t :: rest) :
    fetch s = some (t, { s with pending := rest }) := by simp [fetch, h]

/-- Everything a step can do. -/
theorem step_cases (s : State) :
    (s.pending = [] ∧ step s = .next s) ∨
    (∃ t rest r, s.pending = t :: rest ∧ decode s.params.maxStr t = .error r ∧ step s = .refused r) ∨
    (∃ t rest i, s.pending = t :: rest ∧ decode s.params.maxStr t = .ok i ∧
      step s = exec i { s with pending := rest }) := by
  cases hp : s.pending with
  | nil => exact .inl ⟨rfl, by simp [step, fetch_nil s hp]⟩
  | cons t rest =>
    cases hd : decode s.params.maxStr t with
    | error r => exact .inr (.inl ⟨t, rest, r, rfl, hd, by simp [step, fetch_cons s t rest hp, decodeFetched, hd]⟩)
    | ok i => exact .inr (.inr ⟨t, rest, i, rfl, hd, by simp [step, fetch_cons s t rest hp, decodeFetched, hd]⟩)

/-- The table word placed by the host is the one the next step decodes and runs. -/
theorem step_withFetchWord (s : State) (nbits w : Nat) (i : Instr)
    (h : decode s.params.maxStr (tableTransaction w) = .ok i) : step (s.withFetchWord nbits w) = exec i s := by
  simp [step, State.withFetchWord, placeNext, fetch, decodeFetched, h]

/-! ### The decoder and the meanings -/

theorem strFits_iff (m : Option Nat) (s : List Byte) : strFits m s = true ↔ ∀ k, m = some k → s.length ≤ k := by
  cases m <;> simp [strFits]

/-- The two fields make up the command word. -/
theorem cmdWord_fields (cmd : BitVec 12) : cmdWord (opField cmd) (dataField cmd) = cmd := by
  apply BitVec.eq_of_getLsbD_eq
  intro i hi
  simp only [cmdWord, opField, dataField, BitVec.getLsbD_append, BitVec.getLsbD_extractLsb']
  by_cases h : i < 8
  · simp [h]
  · simp [h, show i - 8 < 4 by omega, show 8 + (i - 8) = i by omega]

/-- No meaning refuses. -/
theorem exec_not_refused (i : Instr) (s : State) (x : Refusal) : exec i s ≠ .refused x := by
  cases i <;> simp [exec, execPtProcessByte, execPtReset, execEnProcessByte, execEnReset, execEnSetKey,
    execCrc16Compute, execCrc16Step, execHexNibble, execKeyDecode, execHdrReset, execHdrAddByte, execHdrIsComplete,
    execHdrTelegramWithTagLength, execHdrCheckConsistency, execHdrNonce, execAeadSetKey, execAeadDecrypt,
    onPt_not_refused, onEn_not_refused, returnOrFault_not_refused, updateEn_not_refused, respondOnly, returnValue]

end Sys2Proof.Machine
end

