-- ==== Sys2Proof/Laws/Run.lean ====
section
/-! SUPPORT. The laws of runs (70_reset_and_hazards.md R352): one transaction, runs one after the other, and the
transactions of a byte string. -/

namespace Sys2Proof.Machine

@[simp] theorem run_nil (s : State) : run [] s = .done [] s := rfl

/-- A run whose first transaction completes and whose rest completes. -/
theorem run_cons {t : Transaction} {ts : List Transaction} {s s' s'' : State} {rs : List Response}
    (h : transact s t = .next s') (h' : run ts s' = .done rs s'') : run (t :: ts) s = .done (s'.resp :: rs) s'' := by
  simp [run, h, h']

/-- Everything a completed run of at least one transaction has done. -/
theorem run_cons_done {t : Transaction} {ts : List Transaction} {s s'' : State} {rs : List Response}
    (h : run (t :: ts) s = .done rs s'') :
    ∃ s' rs', transact s t = .next s' ∧ run ts s' = .done rs' s'' ∧ rs = s'.resp :: rs' := by
  simp only [run] at h
  cases ht : transact s t with
  | fault f => simp [ht] at h
  | refused r => simp [ht] at h
  | next s' =>
    cases hr : run ts s' with
    | faulted f => simp [ht, hr] at h
    | refused r => simp [ht, hr] at h
    | done rs' u =>
      simp only [ht, hr, RunResult.done.injEq] at h
      obtain ⟨rfl, rfl⟩ := h
      exact ⟨s', rs', rfl, hr, rfl⟩

/-- Two completed runs, one after the other. -/
theorem run_append {ts us : List Transaction} {s s' s'' : State} {rs qs : List Response}
    (h : run ts s = .done rs s') (h' : run us s' = .done qs s'') : run (ts ++ us) s = .done (rs ++ qs) s'' := by
  induction ts generalizing s rs with
  | nil =>
    simp only [run_nil, RunResult.done.injEq] at h
    obtain ⟨rfl, rfl⟩ := h
    exact h'
  | cons t ts ih =>
    obtain ⟨v, rs', h1, h2, rfl⟩ := run_cons_done h
    exact run_cons h1 (ih h2)

/-- A transaction that decodes runs its instruction on a state with nothing pending. -/
theorem transact_decoded {s : State} {t : Transaction} {i : Instr} (h : decode s.params.maxStr t = .ok i) :
    transact s t = exec i { s with pending := [] } := by
  simp [transact, step, fetch, decodeFetched, h]

/-- One byte for the PT unit. -/
theorem transact_pt (s : State) (b : Byte) :
    transact s ⟨cmdWord 0x0#4 b, none⟩ = exec (.ptProcessByte b) { s with pending := [] } :=
  transact_decoded (by simp [decode, Laws.OpCode.fields_cmdWord, decodeByteOp])

/-- One byte for the EN unit. -/
theorem transact_en (s : State) (b : Byte) :
    transact s ⟨cmdWord 0x2#4 b, none⟩ = exec (.enProcessByte b) { s with pending := [] } :=
  transact_decoded (by simp [decode, Laws.OpCode.fields_cmdWord, decodeByteOp])

end Sys2Proof.Machine
end

