-- ==== Sys2Proof/Tests/Slice0.lean ====
section
/-! SUPPORT. Tests on small states, with the expected values of 95_test_vectors.md, and a witness for the hypotheses of
every obligation that has some. -/

namespace Sys2Proof.Tests

open Sys2Proof.Machine

-- One theorem at a time: each `decide +kernel` would otherwise hold a thread of its own.
set_option Elab.async false

/-! ### Helpers -/

/-- The ASCII bytes of a text. -/
def ascii (s : String) : List Byte := s.toList.map fun c => BitVec.ofNat 8 c.toNat

/-- The cells of a buffer that holds a byte string from an index on. -/
def cells : Nat → List Byte → Buf
  | _, [] => []
  | i, b :: l => (i, b) :: cells (i + 1) l

/-- Plaintext parameters: capacity, CRC checking. -/
def ptParams (cap : Nat) (crc : Bool) : Params := { ptCap := cap, ptCheckCrc := crc, enCap := 64 }

/-- A block whose PT unit has collected a byte string. -/
def ptAt (cap : Nat) (crc : Bool) (st : PtState) (text : List Byte) (acc : Word) (n : Nat) : State :=
  { State.construct (ptParams cap crc) with
    pt := { state := st, buf := cells 0 text, len := text.length, crcAcc := acc, crcNibbles := n } }

/-- H(L) of 95_test_vectors.md. -/
def hdrOf (l : BitVec 16) : Header :=
  #v[0xDB, 0x08, 0x01, 0x02, 0x03, 0x04, 0x05, 0x06, 0x07, 0x08, 0x82, l.extractLsb' 8 8, l.extractLsb' 0 8, 0x30,
    0x00, 0x00, 0x00, 0x2A]

/-- Key K1. -/
def keyK1 : Key :=
  #v[0x00, 0x01, 0x02, 0x03, 0x04, 0x05, 0x06, 0x07, 0x08, 0x09, 0x0A, 0x0B, 0x0C, 0x0D, 0x0E, 0x0F]

/-- The key string of K1. -/
def textK1 : List Byte := ascii "000102030405060708090A0B0C0D0E0F"

/-- F1's 27 bytes after the header. -/
def tailF1 : List Byte :=
  [0xEE, 0x7A, 0x25, 0x35, 0x88, 0x43, 0x1D, 0x38, 0xEF, 0x91, 0x0C, 0x9A, 0xE2, 0xA2, 0xC8,
   0xE0, 0x0F, 0xCF, 0x2A, 0x17, 0x9E, 0x13, 0x3A, 0xCF, 0x95, 0x90, 0x28]

/-- The call of V-AEAD-1. -/
def callF1 : AeadQuery :=
  { key := keyK1
    nonce := [0x01, 0x02, 0x03, 0x04, 0x05, 0x06, 0x07, 0x08, 0x00, 0x00, 0x00, 0x2A]
    aad := [0x30, 0x00, 0x11, 0x22, 0x33, 0x44, 0x55, 0x66, 0x77, 0x88, 0x99, 0xAA, 0xBB, 0xCC, 0xDD, 0xEE, 0xFF]
    ct := tailF1.take 15
    tag := tailF1.drop 15 }

/-- F1's plaintext. -/
def plainF1 : List Byte := ascii "/some data!73B2"

/-- Parameters that bind K1's acceptance and one answer for F1. -/
def enParams (ok : Bool) (answer : Option (List Byte)) : Params :=
  { ptCap := 16, ptCheckCrc := true, enCap := 27, aeadKeyTable := [(keyK1, ok)], aeadTable := [(callF1, answer)] }

/-- A block whose EN unit has K1 loaded and has collected the header and `n` bytes after it. -/
def enAt (p : Params) (st : EnState) (h : Header) (count n : Nat) (loaded : Bool) : State :=
  { State.construct p with
    en := { state := st, hdr := h, hdrCount := count, ct := cells 0 (tailF1.take n), ctLen := n, pt := [],
            key := keyK1, keyLoaded := loaded } }

/-- The response of an outcome, where there is a next state. -/
def respOf : Out → Option Response
  | .next t => some t.resp
  | .fault _ => none
  | .refused _ => none

/-- The returned value of an outcome, where there is a next state. -/
def retOf : Out → Option OpResult
  | .next t => some t.ret
  | .fault _ => none
  | .refused _ => none

/-- The fault of an outcome. -/
def faultOf : Out → Option Fault
  | .next _ => none
  | .fault f => some f
  | .refused _ => none

/-- The PT unit of an outcome. -/
def ptOf : Out → Option PtUnit
  | .next t => some t.pt
  | .fault _ => none
  | .refused _ => none

/-- The EN unit of an outcome. -/
def enOf : Out → Option EnUnit
  | .next t => some t.en
  | .fault _ => none
  | .refused _ => none

/-! ### WellFormed: an ill-formed term for each check (R83, R183) -/

theorem test_wf_set_key_too_long : (Instr.enSetKey [0x30, 0x30]).wellFormed (some 1) = false := by decide
theorem test_wf_crc16_too_long : (Instr.crc16Compute [0x30]).wellFormed (some 0) = false := by decide
theorem test_wf_key_decode_too_long : (Instr.keyDecode [0x30, 0x30]).wellFormed (some 1) = false := by decide
theorem test_wf_short_nonce :
    (Instr.aeadDecrypt keyK1 (callF1.nonce.take 11) callF1.aad callF1.ct callF1.tag).wellFormed none = false := by
  decide
theorem test_wf_short_aad :
    (Instr.aeadDecrypt keyK1 callF1.nonce (callF1.aad.take 16) callF1.ct callF1.tag).wellFormed none = false := by
  decide
theorem test_wf_short_ciphertext :
    (Instr.aeadDecrypt keyK1 callF1.nonce callF1.aad (callF1.ct.take 13) callF1.tag).wellFormed none = false := by
  decide
theorem test_wf_short_tag :
    (Instr.aeadDecrypt keyK1 callF1.nonce callF1.aad callF1.ct (callF1.tag.take 11)).wellFormed none = false := by
  decide
theorem test_wf_call : (Instr.aeadDecrypt keyK1 callF1.nonce callF1.aad callF1.ct callF1.tag).wellFormed none = true := by
  decide

/-! ### Decoding: op = cmd[11:8], data = cmd[7:0], written bit by bit (R80 to R83, R94) -/

theorem test_decode_pt_process_byte : decode none ⟨0b0000_00101111#12, none⟩ = .ok (.ptProcessByte 0x2F#8) := by decide
theorem test_decode_pt_reset : decode none ⟨0b0001_00000000#12, none⟩ = .ok .ptReset := by decide
theorem test_decode_en_process_byte :
    decode none ⟨0b0010_11011011#12, none⟩ = .ok (.enProcessByte 0xDB#8) := by decide
theorem test_decode_en_reset : decode none ⟨0b0011_00000000#12, none⟩ = .ok .enReset := by decide
theorem test_decode_en_set_key :
    decode none ⟨0b0100_00000000#12, some [0x30, 0x31]⟩ = .ok (.enSetKey [0x30, 0x31]) := by decide
theorem test_decode_crc16 :
    decode none ⟨0b0101_00000000#12, some [0x2F, 0x61, 0x21]⟩ = .ok (.crc16Compute [0x2F, 0x61, 0x21]) := by decide
theorem test_decode_reserved : decode none ⟨0b0110_00000000#12, none⟩ = .error .reservedOp := by decide
/-- V-CRC-17. -/
theorem test_decode_nonzero_data : decode none ⟨0x501#12, some []⟩ = .error .nonzeroData := by decide
/-- V-CRC-17. -/
theorem test_decode_missing_operand : decode none ⟨0x500#12, none⟩ = .error .missingOperand := by decide
theorem test_decode_unexpected_operand : decode none ⟨0x100#12, some []⟩ = .error .unexpectedOperand := by decide
theorem test_decode_too_long : decode (some 1) ⟨0x400#12, some [0x30, 0x30]⟩ = .error .stringTooLong := by decide
/-- A table word is decoded, and is what the next step runs. -/
theorem test_table_word : decodeTableWord 12 0x2DB = some (.enProcessByte 0xDB#8) ∧
    step (State.reset.withFetchWord 12 0x2DB) = exec (.enProcessByte 0xDB#8) State.reset := ⟨by decide, rfl⟩

/-! ### PT unit -/

/-- V-PT-4: `'/'` in `InCrc` cuts the frame off and leaves the accumulator and the digit count. -/
theorem test_pt_slash_in_trailer :
    respOf (exec (.ptProcessByte 0x2F#8) (ptAt 32 true .inCrc (ascii "/ab!") 0x0012#16 2)) =
      some (.error .packetStartSymbolInPacket) ∧
    (ptOf (exec (.ptProcessByte 0x2F#8) (ptAt 32 true .inCrc (ascii "/ab!") 0x0012#16 2))).map
      (fun u => (u.state, u.len, u.crcAcc, u.crcNibbles)) = some (.inFrame, 1, 0x0012#16, 2) := by decide +kernel

/-- P1: the last digit of `"/some !a3D4"`. -/
theorem test_pt_last_digit :
    respOf (exec (.ptProcessByte 0x34#8) (ptAt 16 true .inCrc (ascii "/some !") 0x0A3D#16 3)) =
      some (.packet (ascii "/some !")) ∧
    (ptOf (exec (.ptProcessByte 0x34#8) (ptAt 16 true .inCrc (ascii "/some !") 0x0A3D#16 3))).map
      (fun u => (u.state, u.len, u.crcAcc, u.crcNibbles)) = some (.idle, 7, 0xA3D4#16, 4) := by decide +kernel

/-- V-PT-17: the reset after `"/abc"`. -/
theorem test_pt_reset : ptOf (exec .ptReset (ptAt 16 true .inFrame (ascii "/abc") 0x0000#16 0)) =
    some { state := .idle, buf := cells 0 (ascii "/abc"), len := 0, crcAcc := 0x0000#16, crcNibbles := 0 } := by
  decide +kernel

/-! ### EN unit -/

/-- V-EN-6: the last byte of F1 with `EN_CAP = 27`, under an oracle that answers as V-AEAD-1. -/
theorem test_en_last_byte :
    respOf (exec (.enProcessByte 0x28#8) (enAt (enParams true (some plainF1)) .accumulatingTelegram (hdrOf 32) 18 26 true)) =
      some (.packet plainF1) := by decide +kernel

/-- V-EN-2: the 18th byte of H(30). -/
theorem test_en_header_floor :
    respOf (exec (.enProcessByte 0x2A#8) (enAt (enParams true none) .accumulatingHeader (hdrOf 30) 17 0 true)) =
      some (.error .headerCorrupted) := by decide +kernel

/-- V-EN-9, V-EN-21: the reset keeps the key. -/
theorem test_en_reset :
    (enOf (exec .enReset (enAt (enParams true none) .accumulatingTelegram (hdrOf 32) 18 12 true))).map
      (fun u => (u.state, u.hdrCount, u.ctLen, u.keyLoaded, u.key)) = some (.idle, 0, 0, true, keyK1) := by
  decide +kernel

/-- V-KEY-2. -/
theorem test_en_set_key : (enOf (exec (.enSetKey textK1) State.reset)).map (fun u => (u.key, u.keyLoaded)) =
    some (keyK1, true) := by decide +kernel

/-- V-KEY-9, second call: a failed call keeps the key. -/
theorem test_en_set_key_failed :
    respOf (exec (.enSetKey (List.replicate 31 0x30 ++ [0x78])) (enAt (enParams true none) .idle (hdrOf 32) 0 0 true)) =
      some (.error .keyNotHex) ∧
    (enOf (exec (.enSetKey (List.replicate 31 0x30 ++ [0x78])) (enAt (enParams true none) .idle (hdrOf 32) 0 0 true))).map
      (fun u => (u.key, u.keyLoaded)) = some (keyK1, true) := by decide +kernel

/-! ### CRC engine and key codec -/

/-- V-CRC-17. -/
theorem test_crc16_compute : respOf (exec (.crc16Compute (ascii "/a!")) State.reset) = some (.crc 0x41D8#16) := by
  decide +kernel
/-- V-CRC-3. -/
theorem test_crc16_empty : respOf (exec (.crc16Compute []) State.reset) = some (.crc 0x0000#16) := by decide +kernel
/-- V-CRC-9. -/
theorem test_crc16_step : retOf (exec (.crc16Step 0x0000#16 0x2F#8) State.reset) = some (.word 0xDC41#16) := by
  decide +kernel
/-- V-CRC-15. -/
theorem test_crc16_step_carries : retOf (exec (.crc16Step 0x15A4#16 0x21#8) State.reset) = some (.word 0xA3D4#16) := by
  decide +kernel
/-- V-KEY-1, the digits at the ends of the ranges. -/
theorem test_hex_nibble_digits : ([0x30, 0x39, 0x41, 0x46, 0x61, 0x66] : List Byte).map
    (fun c => retOf (exec (.hexNibble c) State.reset)) =
    ([0, 9, 10, 15, 10, 15] : List Nibble).map (fun n => some (.nibble (some n))) := by decide +kernel
/-- V-KEY-1, the bytes next to the ranges. -/
theorem test_hex_nibble_none : ([0x2F, 0x3A, 0x40, 0x47, 0x60, 0x67, 0x80, 0xFF] : List Byte).map
    (fun c => retOf (exec (.hexNibble c) State.reset)) =
    List.replicate 8 (some (.nibble none)) := by decide +kernel
/-- V-KEY-10: K2, of both cases. -/
theorem test_key_decode : retOf (exec (.keyDecode (ascii "0123456789abcdefFEDCBA9876543210")) State.reset) =
    some (.key #v[0x01, 0x23, 0x45, 0x67, 0x89, 0xAB, 0xCD, 0xEF, 0xFE, 0xDC, 0xBA, 0x98, 0x76, 0x54, 0x32, 0x10]) := by
  decide +kernel
/-- V-KEY-7: the length is checked first. -/
theorem test_key_decode_length : retOf (exec (.keyDecode (List.replicate 31 0x67)) State.reset) =
    some (.keyError .keyLengthInvalid) := by decide +kernel

/-! ### Header model -/

theorem test_hdr_reset : (enOf (exec .hdrReset (enAt (enParams true none) .idle (hdrOf 32) 18 0 true))).map
    (fun u => (u.hdrCount, u.hdr)) = some (0, hdrOf 32) := by decide +kernel
/-- V-HDR-6. -/
theorem test_hdr_add_byte : (enOf (exec (.hdrAddByte 0x11#8) (enAt (enParams true none) .idle (hdrOf 32) 3 0 true))).map
    (fun u => (u.hdrCount, u.hdr[3])) = some (4, 0x11#8) := by decide +kernel
theorem test_hdr_add_byte_overrun :
    faultOf (exec (.hdrAddByte 0x11#8) (enAt (enParams true none) .idle (hdrOf 32) 18 0 true)) = some .hdrOverrun := by
  decide +kernel
/-- V-HDR-6. -/
theorem test_hdr_is_complete :
    retOf (exec .hdrIsComplete (enAt (enParams true none) .idle (hdrOf 32) 18 0 true)) = some (.bool true) ∧
    retOf (exec .hdrIsComplete (enAt (enParams true none) .idle (hdrOf 32) 17 0 true)) = some (.bool false) := by
  decide +kernel
/-- V-HDR-5: the length is big-endian. -/
theorem test_hdr_tw_big_endian :
    retOf (exec .hdrTelegramWithTagLength (enAt (enParams true none) .idle (hdrOf 0x0102#16) 18 0 true)) =
      some (.int 253) := by decide +kernel
/-- V-HDR-4: a short length, by default and with `TWTL_WRAP`. -/
theorem test_hdr_tw_short :
    retOf (exec .hdrTelegramWithTagLength (enAt (enParams true none) .idle (hdrOf 0) 18 0 true)) =
      some (.int (-5)) ∧
    retOf (exec .hdrTelegramWithTagLength
      (enAt { enParams true none with twtlWrap := true } .idle (hdrOf 0) 18 0 true)) = some (.int 65531) := by
  decide +kernel
/-- V-HDR-2. -/
theorem test_hdr_floor :
    retOf (exec .hdrCheckConsistency (enAt (enParams true none) .idle (hdrOf 30) 18 0 true)) = some (.bool false) ∧
    retOf (exec .hdrCheckConsistency (enAt (enParams true none) .idle (hdrOf 31) 18 0 true)) = some (.bool true) := by
  decide +kernel
/-- V-HDR-3: the control field. -/
theorem test_hdr_control_field :
    retOf (exec .hdrCheckConsistency (enAt (enParams true none) .idle ((hdrOf 32).set 13 0x31) 18 0 true)) =
      some (.bool false) := by decide +kernel
/-- V-HDR-1. -/
theorem test_hdr_nonce : retOf (exec .hdrNonce (enAt (enParams true none) .idle (hdrOf 32) 18 0 true)) =
    some (.bytes [0x01, 0x02, 0x03, 0x04, 0x05, 0x06, 0x07, 0x08, 0x00, 0x00, 0x00, 0x2A]) := by decide +kernel

/-! ### AEAD adapter -/

theorem test_aead_set_key : retOf (exec (.aeadSetKey keyK1) (State.construct (enParams false none))) =
    some (.bool false) := by decide +kernel
/-- V-AEAD-1 as the bound answer. -/
theorem test_aead_decrypt : retOf (exec (.aeadDecrypt keyK1 callF1.nonce callF1.aad callF1.ct callF1.tag)
    (State.construct (enParams true (some plainF1)))) = some (.plaintext (some plainF1)) := by decide +kernel
/-- D32: an answer of another length. -/
theorem test_aead_length : faultOf (exec (.aeadDecrypt keyK1 callF1.nonce callF1.aad callF1.ct callF1.tag)
    (State.construct (enParams true (some (plainF1.take 14))))) = some .aeadLength := by decide +kernel

/-! ### Notation (R95, R96) -/

theorem test_asm_byte : assemble [['p', 't', '.', 'b', 'y', 't', 'e', ' ', '\'', 'x', '\''],
    "en.byte 0xDB ; a header".toList] = some [⟨0x078#12, none⟩, ⟨0x2DB#12, none⟩] := by decide +kernel
/-- P3. -/
theorem test_asm_reset_and_crc : assemble ["pt.reset".toList, "crc16 \"/a!\"".toList] =
    some [⟨0x100#12, none⟩, ⟨0x500#12, some [0x2F, 0x61, 0x21]⟩] := by decide +kernel
/-- V-EN-1, P1. -/
theorem test_asm_pseudo : assemble ["en.hex 00 FF".toList, "pt.str \"/s\\r\"".toList] =
    some [⟨0x200#12, none⟩, ⟨0x2FF#12, none⟩, ⟨0x02F#12, none⟩, ⟨0x073#12, none⟩, ⟨0x00D#12, none⟩] := by
  decide +kernel
theorem test_asm_set_key_hex : assemble ["en.setkey hex:30 31".toList, "en.reset".toList] =
    some [⟨0x400#12, some [0x30, 0x31]⟩, ⟨0x300#12, none⟩] := by decide +kernel
/-- R95's other spelling of a string, in a line of R96 (log 22). -/
theorem test_asm_pseudo_hex : assemble ["pt.str hex:2F 21".toList, "en.str hex:DB".toList] =
    some [⟨0x02F#12, none⟩, ⟨0x021#12, none⟩, ⟨0x2DB#12, none⟩] := by decide +kernel
theorem test_asm_not_a_line : assemble ["pt.bytes 0x00".toList] = none := by decide +kernel

/-! ### Witnesses: the hypotheses of the obligations, met -/

theorem witness_DecodeEncodeRoundTrip :
    (Instr.enSetKey [0x30, 0x31]).wellFormed (some 2) = true ∧
    encode (.enSetKey [0x30, 0x31]) = some ⟨0x400#12, some [0x30, 0x31]⟩ ∧
    encode (.ptProcessByte 0xFF) = some ⟨0x0FF#12, none⟩ := by decide

theorem witness_DecodedTransactionIsEncoding :
    decode (some 2) ⟨0x500#12, some [0x30, 0x31]⟩ = .ok (.crc16Compute [0x30, 0x31]) := by decide

theorem witness_DataByteOnlyForByteOperations :
    (0x0FF#12).extractLsb' 8 4 = 0x0#4 ∧ (0x2FF#12).extractLsb' 8 4 = 0x2#4 ∧
    (0x301#12).extractLsb' 8 4 ∈ [0x1#4, 0x3#4, 0x4#4, 0x5#4] ∧ (0x301#12).extractLsb' 0 8 ≠ 0x00#8 := by decide

theorem witness_StringOperandRefusals :
    (0x2FF#12).extractLsb' 8 4 ∈ [0x0#4, 0x2#4] ∧ 0x100#12 ∈ [0x100#12, 0x300#12] ∧
    0x400#12 ∈ [0x400#12, 0x500#12] := by decide
theorem witness_StringOperandRefusals_too_long :
    ∃ m, (some 0 : Option Nat) = some m ∧ m < ([0x30] : List Byte).length := ⟨0, rfl, by decide⟩
theorem witness_StringOperandRefusals_fits :
    ∀ m, (some 1 : Option Nat) = some m → ([0x30] : List Byte).length ≤ m := by simp

theorem witness_ReservedOperationRefused :
    6 ≤ ((0x600#12).extractLsb' 8 4).toNat ∧ 6 ≤ ((0xFFF#12).extractLsb' 8 4).toNat := by decide

theorem witness_StepRunsDecodedInstruction :
    (issue State.reset ⟨0x100#12, none⟩).pending = [⟨0x100#12, none⟩] ∧
    decode State.reset.params.maxStr ⟨0x100#12, none⟩ = .ok .ptReset ∧
    decode State.reset.params.maxStr ⟨0x101#12, none⟩ = .error .nonzeroData := by decide

theorem witness_IdleBlockHoldsState : State.reset.pending = [] := rfl

theorem witness_ConstructionMeetsInvariant : 1 ≤ (ptParams 1 true).ptCap := by decide

/-- The invariant holds in every state of the PT unit and of the EN unit. -/
theorem witness_StepKeepsInvariant :
    (ptAt 4 true .inFrame (ascii "/ab") 0x0000#16 0).Inv ∧ (ptAt 4 true .inCrc (ascii "/a!") 0x0041#16 2).Inv ∧
    (enAt (enParams true none) .accumulatingHeader (hdrOf 32) 17 0 true).Inv ∧
    (enAt (enParams true none) .accumulatingTelegram (hdrOf 32) 18 26 true).Inv :=
  ⟨by decide +kernel, by decide +kernel, by decide +kernel, by decide +kernel⟩
theorem witness_StepKeepsInvariant_step :
    (placeNext (ptAt 4 true .inFrame (ascii "/ab") 0x0000#16 0) ⟨0x061#12, none⟩).Inv ∧
    respOf (step (placeNext (ptAt 4 true .inFrame (ascii "/ab") 0x0000#16 0) ⟨0x061#12, none⟩)) = some .none := by
  decide +kernel

theorem witness_HostTransactionCompletes : State.reset.Inv ∧ (Instr.ptProcessByte 0x2F#8).isHost = true := by
  decide +kernel
/-- V-EN-7: the second outcome. -/
theorem witness_HostTransactionCompletes_no_key :
    (enAt (enParams true none) .accumulatingTelegram (hdrOf 32) 18 26 false).Inv ∧
    faultOf (exec (.enProcessByte 0x28#8) (enAt (enParams true none) .accumulatingTelegram (hdrOf 32) 18 26 false)) =
      some .keyNotLoaded := by decide +kernel
/-- D32: the third outcome. -/
theorem witness_HostTransactionCompletes_length :
    (enAt (enParams true (some [])) .accumulatingTelegram (hdrOf 32) 18 26 true).Inv ∧
    oracleTyped (enParams true (some [])) = false ∧
    faultOf (exec (.enProcessByte 0x28#8) (enAt (enParams true (some [])) .accumulatingTelegram (hdrOf 32) 18 26 true)) =
      some .aeadLength := by decide +kernel

theorem witness_ParametersNeverChange :
    respOf (exec (.crc16Compute []) State.reset) = some (.crc 0#16) ∧
    respOf (step (placeNext State.reset ⟨0x300#12, none⟩)) = some .none := by decide +kernel

theorem witness_StateEncodingThreeFaults :
    (ptAt 4 true .reserved [] 0#16 0).pt.state = .reserved ∧
    (enAt (enParams true none) .reserved (hdrOf 32) 0 0 true).en.state = .reserved := by decide +kernel

/-- The append fills the buffer. -/
theorem witness_RunningCrcFollowsBuffer :
    bufWf (ptAt 3 true .inFrame (ascii "/a") 0#16 0).pt.buf = true ∧
    ptFrame (ptParams 3 true) (ptAt 3 true .inFrame (ascii "/a") 0#16 0).pt = .ok (ascii "/a") ∧
    ptAppend (ptParams 3 true) 0x21#8 (ptAt 3 true .inFrame (ascii "/a") 0#16 0).pt =
      .ok (ptAt 3 true .inFrame (ascii "/a!") 0#16 0).pt := by decide +kernel

/-- The four ranges of HexNibbleValueOfEveryByte at their ends. -/
theorem witness_HexNibbleValueOfEveryByte :
    (0x30 ≤ (0x39#8).toNat ∧ (0x39#8).toNat ≤ 0x39) ∧ (0x41 ≤ (0x46#8).toNat ∧ (0x46#8).toNat ≤ 0x46) ∧
    (0x61 ≤ (0x66#8).toNat ∧ (0x66#8).toNat ≤ 0x66) ∧ (0x2F#8).toNat < 0x30 ∧
    (0x39 < (0x40#8).toNat ∧ (0x40#8).toNat < 0x41) ∧ (0x46 < (0x60#8).toNat ∧ (0x60#8).toNat < 0x61) ∧
    0x66 < (0x67#8).toNat := by decide

theorem witness_KeyDecodeReturns :
    (List.replicate 33 (0x30#8)).length ≠ 32 ∧ (List.replicate 31 (0x30#8) ++ [0x67]).length = 32 ∧
    textK1.length = 32 := by decide +kernel
theorem witness_KeyDecodeReturns_not_hex : ∃ c ∈ List.replicate 31 (0x30#8) ++ [0x67], hexval c = none :=
  ⟨0x67, by simp, by decide⟩
theorem witness_KeyDecodeReturns_hex : ∀ c ∈ textK1, hexval c ≠ none := by decide +kernel
/-- The last pair of K1. -/
theorem witness_KeyDecodeReturns_pair :
    textK1[2 * 15]? = some 0x30#8 ∧ textK1[2 * 15 + 1]? = some 0x46#8 ∧ hexval 0x30#8 = some 0#4 ∧
    hexval 0x46#8 = some 15#4 := by decide +kernel

/-- V-KEY-3: two different spellings. -/
theorem witness_KeyDecodeIgnoresCase :
    textK1 ≠ ascii "000102030405060708090a0b0c0d0e0f" ∧
    textK1.map hexval = (ascii "000102030405060708090a0b0c0d0e0f").map hexval := by decide +kernel

/-- The cases of SetKeyStoresOrRejects are those of KeyDecodeReturns. -/
theorem witness_SetKeyStoresOrRejects :
    (ascii "0001").length ≠ 32 ∧ (List.replicate 31 (0x30#8) ++ [0x67]).length = 32 ∧
    hexval 0x67#8 = none ∧ textK1.length = 32 ∧ ∀ c ∈ textK1, hexval c ≠ none := by decide +kernel

theorem witness_HeaderAddByteAppends :
    (enAt (enParams true none) .idle (hdrOf 32) 17 0 true).en.hdrCount < 18 ∧
    (enAt (enParams true none) .idle (hdrOf 32) 18 0 true).en.hdrCount = 18 := by decide

theorem witness_TelegramLengthValue :
    (enAt { enParams true none with twtlWrap := true } .idle (hdrOf 5) 18 0 true).en.hdrCount = 18 ∧
    5 ≤ (hdrOf 5)[11].toNat * 256 + (hdrOf 5)[12].toNat ∧ (hdrOf 4)[11].toNat * 256 + (hdrOf 4)[12].toNat ≤ 4 ∧
    (enParams true none).twtlWrap = false := by decide +kernel

theorem witness_ConsistencyIsFiveConditions :
    (enAt (enParams true none) .idle (hdrOf 31) 18 0 true).en.hdrCount = 18 ∧ 25 < hdrTw (enParams true none) (hdrOf 31) ∧
    ¬ 25 < hdrTw (enParams true none) (hdrOf 30) := by decide +kernel

theorem witness_NonceIsTitleThenCounter :
    (enAt (enParams true none) .idle (hdrOf 32) 18 0 true).en.hdrCount = 18 := rfl

theorem witness_FieldReadNeedsWholeHeader :
    (enAt (enParams true none) .idle (hdrOf 32) 17 0 true).en.hdrCount < 18 := by decide

theorem witness_ConsistentHeaderLengths :
    hdrConsistent (enParams true none) (hdrOf 31) = true ∧ (enParams true none).twtlWrap = false := by decide +kernel

theorem witness_AeadSetKeyReturnsAnswer : (enParams false none).aeadKeyTable.lookup keyK1 = some false := by
  decide +kernel

theorem witness_AeadDecryptReturnsAnswer :
    aeadDecrypt (enParams true none) callF1 = none ∧
    aeadDecrypt (enParams true (some plainF1)) callF1 = some plainF1 ∧ plainF1.length = callF1.ct.length ∧
    aeadDecrypt (enParams true (some [])) callF1 = some [] ∧ ([] : List Byte).length ≠ callF1.ct.length ∧
    oracleTyped (enParams true (some plainF1)) = true := by decide +kernel

theorem witness_SlashStartsFrame :
    (ptAt 1 true .idle [] 0#16 0).pt.state ≠ .reserved ∧ 1 ≤ (ptAt 1 true .idle [] 0#16 0).params.ptCap := by decide

theorem witness_FullBufferOverflows :
    (ptAt 4 false .inFrame (ascii "/abc") 0#16 0).pt.state ≠ .reserved ∧ 0x64#8 ≠ 0x2F#8 ∧
    (ptAt 4 false .inFrame (ascii "/abc") 0#16 0).pt.len = (ptAt 4 false .inFrame (ascii "/abc") 0#16 0).params.ptCap := by
  decide +kernel

theorem witness_IdleByteIgnored :
    (ptAt 1 true .idle [] 0#16 0).pt.state = .idle ∧ 0x21#8 ≠ 0x2F#8 ∧
    (ptAt 1 true .idle [] 0#16 0).pt.len < (ptAt 1 true .idle [] 0#16 0).params.ptCap := by decide

/-- The last free place of the buffer. -/
theorem witness_BodyByteAppended :
    (ptAt 3 true .inFrame (ascii "/a") 0#16 0).pt.state = .inFrame ∧ 0x61#8 ≠ 0x2F#8 ∧ 0x61#8 ≠ 0x21#8 ∧
    (ptAt 3 true .inFrame (ascii "/a") 0#16 0).pt.len < (ptAt 3 true .inFrame (ascii "/a") 0#16 0).params.ptCap := by
  decide +kernel

theorem witness_EndSentinelDelivers :
    (ptAt 3 false .inFrame (ascii "/a") 0#16 0).pt.state = .inFrame ∧
    (ptAt 3 false .inFrame (ascii "/a") 0#16 0).pt.len < (ptAt 3 false .inFrame (ascii "/a") 0#16 0).params.ptCap ∧
    (ptAt 3 false .inFrame (ascii "/a") 0#16 0).params.ptCheckCrc = false ∧
    bufReadRange (ptAt 3 false .inFrame (ascii "/a") 0#16 0).pt.buf 0
      (ptAt 3 false .inFrame (ascii "/a") 0#16 0).pt.len = some (ascii "/a") := by decide +kernel

theorem witness_EndSentinelOpensTrailer :
    (ptAt 3 true .inFrame (ascii "/a") 0#16 0).pt.state = .inFrame ∧
    (ptAt 3 true .inFrame (ascii "/a") 0#16 0).pt.len < (ptAt 3 true .inFrame (ascii "/a") 0#16 0).params.ptCap ∧
    (ptAt 3 true .inFrame (ascii "/a") 0#16 0).params.ptCheckCrc = true := by decide +kernel

theorem witness_BadTrailerCharacter :
    (ptAt 16 true .inCrc (ascii "/a!") 0#16 0).pt.state = .inCrc ∧ 0x47#8 ≠ 0x2F#8 ∧
    (ptAt 16 true .inCrc (ascii "/a!") 0#16 0).pt.len < (ptAt 16 true .inCrc (ascii "/a!") 0#16 0).params.ptCap ∧
    hexval 0x47#8 = none := by decide +kernel

theorem witness_TrailerDigitFolded :
    (ptAt 16 true .inCrc (ascii "/a!") 0x0041#16 2).pt.state = .inCrc ∧ 0x44#8 ≠ 0x2F#8 ∧
    (ptAt 16 true .inCrc (ascii "/a!") 0x0041#16 2).pt.len <
      (ptAt 16 true .inCrc (ascii "/a!") 0x0041#16 2).params.ptCap ∧
    hexval 0x44#8 = some 13#4 ∧ (ptAt 16 true .inCrc (ascii "/a!") 0x0041#16 2).pt.crcNibbles + 1 < 4 := by
  decide +kernel

/-- Both outcomes: the digit that matches, and another (V-PT-18). -/
theorem witness_FourthDigitDecides :
    (ptAt 16 true .inCrc (ascii "/a!") 0x041D#16 3).pt.state = .inCrc ∧ 0x38#8 ≠ 0x2F#8 ∧ 0x39#8 ≠ 0x2F#8 ∧
    (ptAt 16 true .inCrc (ascii "/a!") 0x041D#16 3).pt.len <
      (ptAt 16 true .inCrc (ascii "/a!") 0x041D#16 3).params.ptCap ∧
    hexval 0x38#8 = some 8#4 ∧ hexval 0x39#8 = some 9#4 ∧
    (ptAt 16 true .inCrc (ascii "/a!") 0x041D#16 3).pt.crcNibbles + 1 = 4 ∧
    bufReadRange (ptAt 16 true .inCrc (ascii "/a!") 0x041D#16 3).pt.buf 0
      (ptAt 16 true .inCrc (ascii "/a!") 0x041D#16 3).pt.len = some (ascii "/a!") ∧
    foldNibble 0x041D#16 8#4 = crc16 (ascii "/a!") ∧ foldNibble 0x041D#16 9#4 ≠ crc16 (ascii "/a!") := by
  decide +kernel

theorem witness_PtResetClears : ∃ t, exec .ptReset State.reset = .next t := ⟨_, rfl⟩

theorem witness_PtOperationFrame :
    respOf (exec (.ptProcessByte 0x62#8) (ptAt 16 true .inFrame (ascii "/a") 0#16 0)) = some .none ∧
    respOf (exec .ptReset (ptAt 16 true .inFrame (ascii "/a") 0#16 0)) = some .none := by decide +kernel

/-- From `Idle` and from inside a frame, with no byte to spare. -/
theorem witness_PlainFrameDelivered :
    (ptAt 3 false .idle [] 0#16 0).Inv ∧ (ptAt 3 false .inFrame (ascii "/b") 0#16 0).Inv ∧
    (ptParams 3 false).ptCheckCrc = false ∧ (∀ b ∈ ascii "a", b ≠ 0x2F#8 ∧ b ≠ 0x21#8) ∧
    (ascii "a").length + 2 ≤ (ptParams 3 false).ptCap := by decide +kernel

/-- V-CRC-11: `"/a!"` and its trailer `41D8`. -/
theorem witness_PlainFrameWithTrailerDelivered :
    (ptAt 4 true .idle [] 0#16 0).Inv ∧ (ptParams 4 true).ptCheckCrc = true ∧
    (∀ b ∈ ascii "a", b ≠ 0x2F#8 ∧ b ≠ 0x21#8) ∧ (ascii "a").length + 2 < (ptParams 4 true).ptCap ∧
    hexval 0x34#8 = some 4#4 ∧ hexval 0x31#8 = some 1#4 ∧ hexval 0x44#8 = some 13#4 ∧ hexval 0x38#8 = some 8#4 ∧
    crc16 (0x2F#8 :: ascii "a" ++ [0x21#8]) = 4#4 ++ 1#4 ++ 13#4 ++ 8#4 := by decide +kernel

/-- V-PT-6. -/
theorem witness_OverflowAfterFullPacket :
    (ptParams 4 false).ptClearOnIdle = false ∧ (ptParams 4 false).ptCheckCrc = false ∧
    (ptAt 4 false .inFrame (ascii "/ab") 0#16 0).pt.state = .inFrame ∧
    (ptAt 4 false .inFrame (ascii "/ab") 0#16 0).pt.len + 1 = (ptParams 4 false).ptCap ∧
    bufReadRange (ptAt 4 false .inFrame (ascii "/ab") 0#16 0).pt.buf 0
      (ptAt 4 false .inFrame (ascii "/ab") 0#16 0).pt.len = some (ascii "/ab") ∧ 0x78#8 ≠ 0x2F#8 := by decide +kernel

/-- V-PT-18 and P1: the last digit delivers `"/a!"`. -/
theorem witness_PacketHasFrameShape :
    (ptAt 4 true .inCrc (ascii "/a!") 0x041D#16 3).Inv ∧
    respOf (exec (.ptProcessByte 0x38#8) (ptAt 4 true .inCrc (ascii "/a!") 0x041D#16 3)) =
      some (.packet (ascii "/a!")) := by decide +kernel

theorem witness_SentinelStartsHeader : State.reset.en.state = .idle := rfl

theorem witness_EnIdleByteIgnored : State.reset.en.state = .idle ∧ 0x7E#8 ≠ 0xDB#8 := by decide

theorem witness_HeaderByteCollected :
    (enAt (enParams true none) .accumulatingHeader (hdrOf 32) 16 0 true).en.state = .accumulatingHeader ∧
    (enAt (enParams true none) .accumulatingHeader (hdrOf 32) 16 0 true).en.hdrCount + 1 < 18 := by decide

/-- The three verdicts: H(30), H(33) with `EN_CAP = 27`, H(32). -/
theorem witness_EighteenthByteVerdict :
    (enAt (enParams true none) .accumulatingHeader (hdrOf 32) 17 0 true).en.state = .accumulatingHeader ∧
    (enAt (enParams true none) .accumulatingHeader (hdrOf 32) 17 0 true).en.hdrCount = 17 ∧
    hdrConsistent (enParams true none) (hdrOf 30) = false ∧
    hdrConsistent (enParams true none) (hdrOf 33) = true ∧ (27 : Int) < hdrTw (enParams true none) (hdrOf 33) ∧
    hdrConsistent (enParams true none) (hdrOf 32) = true ∧ hdrTw (enParams true none) (hdrOf 32) ≤ (27 : Int) ∧
    hdrOf 32 = (hdrOf 32).set 17 0x2A := by decide +kernel

theorem witness_CipherByteStored :
    (enAt (enParams true none) .accumulatingTelegram (hdrOf 32) 18 25 true).en.state = .accumulatingTelegram ∧
    (enAt (enParams true none) .accumulatingTelegram (hdrOf 32) 18 25 true).en.hdrCount = 18 ∧
    25 < (enParams true none).enCap ∧ ((25 : Nat) : Int) + 1 < hdrTw (enParams true none) (hdrOf 32) := by decide +kernel

/-- F1's last byte, with the four outcomes' conditions. -/
theorem witness_FrameCompletionOutcome :
    (enAt (enParams true none) .accumulatingTelegram (hdrOf 32) 18 26 true).en.state = .accumulatingTelegram ∧
    (enAt (enParams true none) .accumulatingTelegram (hdrOf 32) 18 26 true).en.hdrCount = 18 ∧
    26 < (enParams true none).enCap ∧ ((26 : Nat) : Int) + 1 = hdrTw (enParams true none) (hdrOf 32) ∧ 11 ≤ 26 ∧
    bufReadRange (enAt (enParams true none) .accumulatingTelegram (hdrOf 32) 18 26 true).en.ct 0 26 =
      some (tailF1.take 26) := by decide +kernel
theorem witness_FrameCompletionOutcome_cases :
    (enAt (enParams true none) .accumulatingTelegram (hdrOf 32) 18 26 false).en.keyLoaded = false ∧
    aeadSetkey (enParams false none) keyK1 = false ∧ aeadSetkey (enParams true none) keyK1 = true ∧
    frameQuery (enAt (enParams true none) .accumulatingTelegram (hdrOf 32) 18 26 true).en (tailF1.take 26 ++ [0x28]) =
      callF1 ∧
    aeadDecrypt (enParams true none) callF1 = none ∧
    aeadDecrypt (enParams true (some plainF1)) callF1 = some plainF1 ∧
    plainF1.length + 12 = (tailF1.take 26).length + 1 := by decide +kernel

theorem witness_EnResetClears : ∃ t, exec .enReset State.reset = .next t := ⟨_, rfl⟩

/-- The clauses on the header, the ciphertext and the plaintext each have a completed operation. -/
theorem witness_EnProcessByteFrame :
    respOf (exec (.enProcessByte 0xDB#8) State.reset) = some .none ∧
    respOf (exec (.enProcessByte 0x2A#8) (enAt (enParams true none) .accumulatingHeader (hdrOf 32) 17 0 true)) =
      some .none ∧
    respOf (exec (.enProcessByte 0x28#8) (enAt (enParams true none) .accumulatingTelegram (hdrOf 32) 18 26 true)) =
      some (.error .decryptionFailed) := by decide +kernel

/-- F1 with K1 loaded, `EN_CAP = 27`. -/
theorem witness_EncryptedFrameDelivered :
    (enAt (enParams true (some plainF1)) .idle (hdrOf 0) 0 0 true).Inv ∧
    (enAt (enParams true (some plainF1)) .idle (hdrOf 0) 0 0 true).en.state = .idle ∧
    (enAt (enParams true (some plainF1)) .idle (hdrOf 0) 0 0 true).en.keyLoaded = true ∧
    oracleTyped (enParams true (some plainF1)) = true ∧ aeadSetkey (enParams true (some plainF1)) keyK1 = true ∧
    hdrConsistent (enParams true (some plainF1)) (hdrOf 32) = true ∧
    hdrTw (enParams true (some plainF1)) (hdrOf 32) ≤ (((enParams true (some plainF1)).enCap : Nat) : Int) ∧
    ((tailF1.length : Nat) : Int) = hdrTw (enParams true (some plainF1)) (hdrOf 32) := by decide +kernel

theorem witness_StateAfterError :
    respOf (exec (.ptProcessByte 0x47#8) (ptAt 16 true .inCrc (ascii "/a!") 0#16 0)) =
      some (.error .incorrectCrcCharacter) ∧
    respOf (exec (.ptProcessByte 0x2F#8) (ptAt 16 true .inCrc (ascii "/a!") 0#16 0)) =
      some (.error .packetStartSymbolInPacket) ∧
    respOf (exec (.enProcessByte 0x2A#8) (enAt (enParams true none) .accumulatingHeader (hdrOf 30) 17 0 true)) =
      some (.error .headerCorrupted) ∧
    respOf (exec (.enSetKey []) State.reset) = some (.error .keyLengthInvalid) := by decide +kernel

/-- Two transactions of each unit, interleaved. -/
theorem witness_UnitsRunIndependently :
    ∃ s', run [⟨0x02F#12, none⟩, ⟨0x2DB#12, none⟩, ⟨0x100#12, none⟩, ⟨0x300#12, none⟩] State.reset =
      .done [.none, .none, .none, .none] s' := ⟨_, rfl⟩

end Sys2Proof.Tests
end

section
/-! PROOFS. The unit invariants are kept by each transition, by the resets and by `EN_SET_KEY`; since the decoder reads
host operations only, every step keeps them (10_state.md R34, 44_plaintext_sync.md R222, R226, 45_encrypted_sync.md
R263). -/

namespace Sys2Proof.Machine

/-! ### The state part of the PT invariant, by state -/

theorem ptStateInv_idle {p : Params} {u : PtUnit} (hs : u.state = .idle) : ptStateInv p u = true ↔ ptIdleInv p u := by
  simp only [ptStateInv, hs, decide_eq_true_eq]

theorem ptStateInv_inFrame {p : Params} {u : PtUnit} (hs : u.state = .inFrame) :
    ptStateInv p u = true ↔ ptInFrameInv u := by
  simp only [ptStateInv, hs, decide_eq_true_eq]

theorem ptStateInv_inCrc {p : Params} {u : PtUnit} (hs : u.state = .inCrc) :
    ptStateInv p u = true ↔ ptInCrcInv p u := by
  simp only [ptStateInv, hs, decide_eq_true_eq]

/-! ### The PT unit -/

/-- The unit after an append (R214 to R216). -/
abbrev ptAfterAppend (b : Byte) (u : PtUnit) : PtUnit :=
  { u with buf := bufWrite u.buf u.len b, len := u.len + 1 }

/-- An append of a byte other than `'/'` keeps R222 (a) and (b). -/
theorem ptFrameOpen_append {u : PtUnit} {b : Byte} (h : ptFrameOpen u) (hb : b ≠ slash) :
    ptFrameOpen (ptAfterAppend b u) := by
  obtain ⟨hlen, hfirst, hrest⟩ := h
  refine ⟨Nat.le_add_left 1 u.len, ?_, fun i hi h1 => ?_⟩
  · rw [bufRead_bufWrite_other _ _ _ _ (by omega)]
    exact hfirst
  · rw [bufRead_bufWrite]
    split_ifs with he
    · simpa using hb
    · exact hrest i (Nat.lt_of_le_of_ne (Nat.le_of_lt_succ hi) he) h1

/-- A buffer that holds only the start sentinel is an open frame without `'!'` (T_SOF, R211). -/
theorem ptInFrameInv_start (u : PtUnit) :
    ptInFrameInv { u with buf := bufWrite u.buf 0 slash, len := 1, state := .inFrame } := by
  refine ⟨⟨Nat.le_refl 1, bufRead_bufWrite_same _ _ _, fun i hi h1 => absurd h1 (Nat.not_le.2 hi)⟩, fun i hi => ?_⟩
  obtain rfl : i = 0 := Nat.lt_one_iff.1 hi
  rw [bufRead_bufWrite_same]
  decide

/-- A body byte keeps what `InFrame` says (T_DATA, R214). -/
theorem ptInFrameInv_append {u : PtUnit} {b : Byte} (h : ptInFrameInv u) (hs : b ≠ slash) (hb : b ≠ bang) :
    ptInFrameInv (ptAfterAppend b u) := by
  obtain ⟨hopen, hbang⟩ := h
  refine ⟨ptFrameOpen_append hopen hs, fun i hi => ?_⟩
  rw [bufRead_bufWrite]
  split_ifs with he
  · simpa using hb
  · exact hbang i (Nat.lt_of_le_of_ne (Nat.le_of_lt_succ hi) he)

/-- The end sentinel leads from what `InFrame` says to what `InCrc` says (T_EOF_CRC, R216). -/
theorem ptInCrcInv_open {p : Params} {u : PtUnit} (h : ptInFrameInv u) (hc : p.ptCheckCrc = true) :
    ptInCrcInv p { ptAfterAppend bang u with crcAcc := 0x0000#16, crcNibbles := 0, state := .inCrc } := by
  obtain ⟨hopen, hbang⟩ := h
  have hlen := hopen.1
  refine ⟨ptFrameOpen_append hopen (by decide), Nat.succ_le_succ hlen, ?_, fun i hi => ?_, Nat.zero_le 3, hc⟩
  · exact bufRead_bufWrite_same _ _ _
  · have hi' : i < u.len := hi
    rw [bufRead_bufWrite_other _ _ _ _ (Nat.ne_of_lt hi')]
    exact hbang i hi'

/-- Every transition of the PT unit keeps its invariant (R222, R226). -/
theorem PtTransition.keeps_inv {p : Params} {b : Byte} {u v : PtUnit} {r : Response} (ht : PtTransition p b u v r)
    (h : PtInv p u) : PtInv p v := by
  have ⟨hp, hbuf, hnib, hst⟩ := h
  have hcap := hbuf.2.2.1
  cases ht with
  | sof hb hc =>
    exact ⟨hp, bufInv_snoc (bufInv_zero hbuf) hc, hnib, (ptStateInv_inFrame rfl).2 (ptInFrameInv_start u)⟩
  | ovf hb hl => exact ⟨hp, bufInv_zero hbuf, hnib, (ptStateInv_idle rfl).2 ⟨fun _ => rfl, fun _ => hp⟩⟩
  | idle hb hl hs => exact h
  | data hb hb' hl hs =>
    have hframe := (ptStateInv_inFrame hs).1 hst
    exact ⟨hp, bufInv_snoc hbuf hl, hnib, (ptStateInv_inFrame (by exact hs)).2 (ptInFrameInv_append hframe hb hb')⟩
  | eofNoCrc bytes hb hl hs hc hr =>
    exact ptToIdle_inv hp (bufInv_snoc hbuf hl) hnib (fun hc' => by simp [hc] at hc')
  | eofCrc hb hl hs hc =>
    have hframe := (ptStateInv_inFrame hs).1 hst
    exact ⟨hp, bufInv_snoc hbuf hl, Nat.zero_le 4, (ptStateInv_inCrc rfl).2 (ptInCrcInv_open hframe hc)⟩
  | crcBad hb hl hs hx => exact ptToIdle_inv hp hbuf hnib (fun _ => Nat.lt_of_le_of_ne hcap hl)
  | crcDigit d hb hl hs hx hn =>
    obtain ⟨hopen, hlen, hlast, hbang, _, hcrc⟩ := (ptStateInv_inCrc hs).1 hst
    exact ⟨hp, hbuf, Nat.le_of_lt hn,
      (ptStateInv_inCrc (by exact hs)).2 ⟨hopen, hlen, hlast, hbang, Nat.le_of_lt_succ hn, hcrc⟩⟩
  | crcOk d bytes hb hl hs hx hn hr he =>
    obtain ⟨_, _, _, _, hdigits, _⟩ := (ptStateInv_inCrc hs).1 hst
    exact ptToIdle_inv hp hbuf (Nat.succ_le_succ hdigits) (fun _ => hl)
  | crcMismatch d bytes hb hl hs hx hn hr he =>
    obtain ⟨_, _, _, _, hdigits, _⟩ := (ptStateInv_inCrc hs).1 hst
    exact ptToIdle_inv hp hbuf (Nat.succ_le_succ hdigits) (fun _ => hl)

/-- `PT_RESET` keeps the PT unit's invariant (R221). -/
theorem ptReset_inv {p : Params} {u : PtUnit} (h : PtInv p u) : PtInv p (ptReset u) := by
  obtain ⟨hp, hbuf, _, _⟩ := h
  exact ⟨hp, bufInv_zero hbuf, Nat.zero_le 4, (ptStateInv_idle rfl).2 ⟨fun _ => rfl, fun _ => hp⟩⟩

/-! ### The state part of the EN invariant, by state -/

theorem enStateInv_idle {p : Params} {u : EnUnit} (hs : u.state = .idle) : enStateInv p u = true := by
  simp only [enStateInv, hs]

theorem enStateInv_header {p : Params} {u : EnUnit} (hs : u.state = .accumulatingHeader) :
    enStateInv p u = true ↔ enHeaderInv u := by
  simp only [enStateInv, hs, decide_eq_true_eq]

theorem enStateInv_telegram {p : Params} {u : EnUnit} (hs : u.state = .accumulatingTelegram) :
    enStateInv p u = true ↔ enTelegramInv p u := by
  simp only [enStateInv, hs, decide_eq_true_eq]

/-! ### The EN unit -/

/-- The verdict's fifth condition: a consistent header gives at least 26 bytes (R156). -/
theorem hdrTw_of_consistent {p : Params} {h : Header} (hc : hdrConsistent p h = true) : 26 ≤ hdrTw p h := by
  obtain ⟨_, _, _, _, htw⟩ := of_decide_eq_true hc
  exact htw

/-- A header byte after the first keeps what `AccumulatingHeader` says (R253). -/
theorem enHeaderInv_append {u : EnUnit} {b : Byte} (h : enHeaderInv u) (hc : u.hdrCount < 18)
    (hn : u.hdrCount + 1 ≠ 18) : enHeaderInv (enAfterHeader b u hc) := by
  obtain ⟨hpos, _, hfirst, hct⟩ := h
  refine ⟨Nat.le_add_left 1 u.hdrCount, by simp only; omega, ?_, hct⟩
  simpa only [Vector.getElem_set_ne hc (by omega : 0 < 18) (by omega : u.hdrCount ≠ 0)] using hfirst

/-- Every transition of the EN unit keeps its invariant (R263). -/
theorem EnTransition.keeps_inv {p : Params} {b : Byte} {u v : EnUnit} {r : Response} (ht : EnTransition p b u v r)
    (h : EnInv p u) : EnInv p v := by
  have ⟨hct, hpt, hcount, hst⟩ := h
  cases ht with
  | sof hs hb =>
    refine ⟨bufInv_zero hct, hpt, Nat.le_add_left 1 17, (enStateInv_header rfl).2 ?_⟩
    exact ⟨Nat.le_refl 1, Nat.le_add_left 1 16, Vector.getElem_set_self _, rfl⟩
  | idle hs hb => exact h
  | hdrByte hs hc hn =>
    have hhdr := (enStateInv_header hs).1 hst
    exact ⟨hct, hpt, hc, (enStateInv_header (by exact hs)).2 (enHeaderInv_append hhdr hc hn)⟩
  | hdrBad hs hc hn hcons => exact ⟨hct, hpt, hc, enStateInv_idle rfl⟩
  | hdrOvf hs hc hn hcons htw => exact ⟨hct, hpt, hc, enStateInv_idle rfl⟩
  | hdrOk hs hc hn hcons htw =>
    obtain ⟨_, _, _, hzero⟩ := (enStateInv_header hs).1 hst
    have hmin := hdrTw_of_consistent hcons
    exact ⟨hct, hpt, hc, (enStateInv_telegram rfl).2 ⟨hn, hcons, hmin, htw, by simp only [hzero]; omega⟩⟩
  | ctByte hs hn hl htw =>
    obtain ⟨hfull, hcons, hmin, hmax, _⟩ := (enStateInv_telegram hs).1 hst
    exact ⟨bufInv_snoc hct hl, hpt, hcount,
      (enStateInv_telegram (by exact hs)).2 ⟨hfull, hcons, hmin, hmax, by simpa using htw⟩⟩
  | setKeyFailed hs hn hl htw hk ha => exact ⟨bufInv_snoc hct hl, hpt, hcount, enStateInv_idle rfl⟩
  | decryptFailed q hs hn hl htw hk ha hq hd => exact ⟨bufInv_snoc hct hl, hpt, hcount, enStateInv_idle rfl⟩
  | delivered q plain hs hn hl htw hk ha hq hd hlen hcap =>
    exact ⟨bufInv_snoc hct hl, bufInv_range hpt hcap, hcount, enStateInv_idle rfl⟩

/-- `EN_RESET` keeps the EN unit's invariant (R261). -/
theorem enReset_inv {p : Params} {u : EnUnit} (h : EnInv p u) : EnInv p (enReset u) := by
  obtain ⟨hct, hpt, _, _⟩ := h
  exact ⟨bufInv_zero hct, hpt, Nat.zero_le 18, enStateInv_idle rfl⟩

/-- Everything `EN_SET_KEY` can do (R262): a failed call leaves the unit as it is. -/
theorem enSetKey_cases (str : List Byte) (u : EnUnit) :
    (∃ k, keyDecode str = .error k ∧ enSetKey str u = .ok (u, .error k)) ∨
    (∃ key, keyDecode str = .ok key ∧ enSetKey str u = .ok ({ u with key := key, keyLoaded := true }, .none)) := by
  cases hk : keyDecode str with
  | error k => exact .inl ⟨k, rfl, by simp only [enSetKey, hk, raiseError]⟩
  | ok key => exact .inr ⟨key, rfl, by simp only [enSetKey, hk, respondNone]⟩

/-- `EN_SET_KEY` keeps the EN unit's invariant (R262). -/
theorem enSetKey_inv {p : Params} {str : List Byte} {u v : EnUnit} {r : Response} (h : EnInv p u)
    (he : enSetKey str u = .ok (v, r)) : EnInv p v := by
  rcases enSetKey_cases str u with ⟨k, _, hk⟩ | ⟨key, _, hk⟩
  · obtain ⟨rfl, _⟩ := Prod.mk.inj (Except.ok.inj (hk.symm.trans he))
    exact h
  · obtain ⟨rfl, _⟩ := Prod.mk.inj (Except.ok.inj (hk.symm.trans he))
    exact h

/-! ### The block -/

theorem decodeByteOp_ok {t : Transaction} {mk : Byte → Instr} {i : Instr} (h : decodeByteOp t mk = .ok i) :
    i = mk (dataField t.cmd) := by
  unfold decodeByteOp at h
  split at h <;> simp only [Except.ok.injEq, reduceCtorEq] at h
  exact h.symm

theorem decodePlainOp_ok {t : Transaction} {j i : Instr} (h : decodePlainOp t j = .ok i) : i = j := by
  unfold decodePlainOp at h
  split_ifs at h
  split at h <;> simp only [Except.ok.injEq, reduceCtorEq] at h
  exact h.symm

theorem decodeStringOp_ok {m : Option Nat} {t : Transaction} {mk : List Byte → Instr} {i : Instr}
    (h : decodeStringOp m t mk = .ok i) : ∃ s, i = mk s := by
  unfold decodeStringOp at h
  split_ifs at h
  split at h
  · simp at h
  · rename_i s _
    split_ifs at h
    exact ⟨s, (Except.ok.inj h).symm⟩

/-- The decoder reads host operations only: an internal operation has no command word (R81, R94). -/
theorem decode_isHost {m : Option Nat} {t : Transaction} {i : Instr} (h : decode m t = .ok i) : i.isHost = true := by
  unfold decode at h
  split at h
  · rw [decodeByteOp_ok h]; rfl
  · rw [decodePlainOp_ok h]; rfl
  · rw [decodeByteOp_ok h]; rfl
  · rw [decodePlainOp_ok h]; rfl
  · obtain ⟨s, rfl⟩ := decodeStringOp_ok h; rfl
  · obtain ⟨s, rfl⟩ := decodeStringOp_ok h; rfl
  · simp at h

/-- A PT transaction keeps the block's invariant if the PT unit after it meets its own. -/
theorem onPt_keeps_inv {s t : State} {r : PtOut} (h : s.Inv) (hu : ∀ u resp, r = .ok (u, resp) → PtInv s.params u)
    (he : onPt s r = .next t) : t.Inv := by
  obtain ⟨u, resp, hr, rfl⟩ := onPt_next _ _ _ he
  exact ⟨hu u resp hr, h.2⟩

/-- An EN transaction keeps the block's invariant if the EN unit after it meets its own. -/
theorem onEn_keeps_inv {s t : State} {r : EnOut} (h : s.Inv) (hu : ∀ u resp, r = .ok (u, resp) → EnInv s.params u)
    (he : onEn s r = .next t) : t.Inv := by
  obtain ⟨u, resp, hr, rfl⟩ := onEn_next _ _ _ he
  exact ⟨h.1, hu u resp hr⟩

/-- Every host operation keeps the block's invariant. An internal operation run on its own need not: `HDR_RESET`
empties a header in progress. -/
theorem exec_host_keeps_inv {i : Instr} {s t : State} (hi : i.isHost = true) (h : s.Inv) (he : exec i s = .next t) :
    t.Inv := by
  cases i with
  | ptProcessByte b => exact onPt_keeps_inv h (fun u resp hr => (ptStep_transition _ _ _ _ _ hr).keeps_inv h.1) he
  | ptReset =>
    refine onPt_keeps_inv (r := respondNone (ptReset s.pt)) h (fun u resp hr => ?_) he
    obtain ⟨rfl, _⟩ := Prod.mk.inj (Except.ok.inj hr)
    exact ptReset_inv h.1
  | enProcessByte b => exact onEn_keeps_inv h (fun u resp hr => (enStep_transition _ _ _ _ _ hr).keeps_inv h.2) he
  | enReset =>
    refine onEn_keeps_inv (r := respondNone (enReset s.en)) h (fun u resp hr => ?_) he
    obtain ⟨rfl, _⟩ := Prod.mk.inj (Except.ok.inj hr)
    exact enReset_inv h.2
  | enSetKey str => exact onEn_keeps_inv h (fun u resp hr => enSetKey_inv h.2 hr) he
  | crc16Compute str =>
    obtain rfl := Host.Outcome.next.inj he
    exact h
  | _ => exact absurd hi Bool.false_ne_true

/-- Settles O12: a step is idle, refused, or one host operation, and each transition of a unit keeps that unit's
invariant. -/
theorem stepKeepsInvariant : Obligations.StepKeepsInvariant := by
  intro s t h he
  rcases step_cases s with ⟨_, hidle⟩ | ⟨_, _, r, _, _, href⟩ | ⟨_, rest, i, _, hd, hexec⟩
  · rw [hidle] at he
    obtain rfl := Host.Outcome.next.inj he
    exact h
  · rw [href] at he
    cases he
  · rw [hexec] at he
    exact exec_host_keeps_inv (s := { s with pending := rest }) (decode_isHost hd) h he

/-! ### Encoding 3 of a state register -/

/-- Encoding 3 is found before anything else (R210). -/
theorem ptStep_reserved (p : Params) (b : Byte) (u : PtUnit) (h : u.state = .reserved) :
    ptStep p b u = .error .unreachableState := by simp only [ptStep, h]

/-- Encoding 3 is found before the byte is looked at (R250). -/
theorem enStep_reserved (p : Params) (b : Byte) (u : EnUnit) (h : u.state = .reserved) :
    enStep p b u = .error .unreachableState := by simp only [enStep, h]

/-- Settles O15: each unit's dispatcher answers UNREACHABLE_STATE, and the fault ends the transaction. -/
theorem stateEncodingThreeFaults : Obligations.StateEncodingThreeFaults := by
  intro s b
  refine ⟨fun h => ?_, fun h => ?_⟩
  · simp only [exec, execPtProcessByte, ptStep_reserved _ _ _ h, onPt_error]
  · simp only [exec, execEnProcessByte, enStep_reserved _ _ _ h, onEn_error]

end Sys2Proof.Machine
end

section
/-! PROOFS. What a transaction leaves unchanged, and the independence of the two units (20_memory.md R63, R69, R73,
R74). Every host operation is a function of the parameters and of one unit, applied by `onPt` or `onEn`: the constancy
of the parameters and the non-interference of the units follow from that shape. -/

namespace Sys2Proof.Machine

/-! ### The shape of a meaning -/

/-- The operations of the PT unit (R81). -/
def runsOnPt : Instr → Bool
  | .ptProcessByte _ | .ptReset => true
  | _ => false

/-- A PT operation is a function of the parameters and the PT unit (R69). -/
theorem exec_eq_onPt {i : Instr} (hp : runsOnPt i = true) :
    ∃ f : Params → PtUnit → PtOut, ∀ s, exec i s = onPt s (f s.params s.pt) := by
  cases i with
  | ptProcessByte b => exact ⟨fun p u => ptStep p b u, fun _ => rfl⟩
  | ptReset => exact ⟨fun _ u => respondNone (ptReset u), fun _ => rfl⟩
  | _ => exact absurd hp Bool.false_ne_true

/-- Any other host operation is a function of the parameters and the EN unit (R69). `CRC16_COMPUTE` reads neither and
leaves the unit as it is (R111). -/
theorem exec_eq_onEn {i : Instr} (hi : i.isHost = true) (hp : runsOnPt i = false) :
    ∃ f : Params → EnUnit → EnOut, ∀ s, exec i s = onEn s (f s.params s.en) := by
  cases i with
  | ptProcessByte b => exact absurd hp.symm Bool.false_ne_true
  | ptReset => exact absurd hp.symm Bool.false_ne_true
  | enProcessByte b => exact ⟨fun p u => enStep p b u, fun _ => rfl⟩
  | enReset => exact ⟨fun _ u => respondNone (enReset u), fun _ => rfl⟩
  | enSetKey str => exact ⟨fun _ u => enSetKey str u, fun _ => rfl⟩
  | crc16Compute str => exact ⟨fun _ u => .ok (u, .crc (crc16 str)), fun _ => rfl⟩
  | _ => exact absurd hi Bool.false_ne_true

/-- An internal operation writes the EN unit or returns a value (log 1). -/
theorem exec_internal {i : Instr} (hi : i.isHost = false) (s : State) :
    (∃ r, exec i s = updateEn s r) ∨ (∃ r, exec i s = returnOrFault s r) := by
  cases i with
  | hdrReset => exact .inl ⟨.ok (hdrReset s.en), rfl⟩
  | hdrAddByte b => exact .inl ⟨hdrAddByte b s.en, rfl⟩
  | crc16Step crc b => exact .inr ⟨.ok (.word (crc16Step crc b)), rfl⟩
  | hexNibble c => exact .inr ⟨.ok (.nibble (hexval c)), rfl⟩
  | keyDecode str => exact .inr ⟨.ok (keyResult (keyDecode str)), rfl⟩
  | hdrIsComplete => exact .inr ⟨.ok (.bool (hdrComplete s.en)), rfl⟩
  | aeadSetKey key => exact .inr ⟨.ok (.bool (aeadSetkey s.params key)), rfl⟩
  | hdrTelegramWithTagLength | hdrCheckConsistency | hdrNonce | aeadDecrypt key nonce aad ct tag =>
    exact .inr ⟨_, rfl⟩
  | _ => exact absurd hi.symm Bool.false_ne_true

/-! ### Parameters (R73) -/

/-- No meaning writes a parameter. -/
theorem exec_params {i : Instr} {s t : State} (h : exec i s = .next t) : t.params = s.params := by
  cases hi : i.isHost with
  | false =>
    rcases exec_internal hi s with ⟨r, hr⟩ | ⟨r, hr⟩
    · obtain ⟨_, _, rfl⟩ := updateEn_next _ _ _ (hr.symm.trans h)
      rfl
    · obtain ⟨_, _, rfl⟩ := returnOrFault_next _ _ _ (hr.symm.trans h)
      rfl
  | true =>
    cases hp : runsOnPt i with
    | true =>
      obtain ⟨f, hf⟩ := exec_eq_onPt hp
      obtain ⟨_, _, _, rfl⟩ := onPt_next _ _ _ ((hf s).symm.trans h)
      rfl
    | false =>
      obtain ⟨f, hf⟩ := exec_eq_onEn hi hp
      obtain ⟨_, _, _, rfl⟩ := onEn_next _ _ _ ((hf s).symm.trans h)
      rfl

/-- Settles O14: a meaning writes units, response and returned value only, and a step that is not idle is a meaning. -/
theorem parametersNeverChange : Obligations.ParametersNeverChange := by
  refine ⟨fun i s t h => exec_params h, fun s t h => ?_⟩
  rcases step_cases s with ⟨_, hidle⟩ | ⟨_, _, r, _, _, href⟩ | ⟨_, rest, i, _, _, hexec⟩
  · obtain rfl := Host.Outcome.next.inj (hidle.symm.trans h)
    rfl
  · cases href.symm.trans h
  · exact exec_params (s := { s with pending := rest }) (hexec.symm.trans h)

/-! ### Refusals (R74) -/

/-- The refusals the decoder raises (R82, R83, R94). -/
def decoderRefusals : List Refusal :=
  [.reservedOp, .nonzeroData, .unexpectedOperand, .missingOperand, .stringTooLong]

theorem decodeByteOp_error {t : Transaction} {mk : Byte → Instr} {r : Refusal} (h : decodeByteOp t mk = .error r) :
    r ∈ decoderRefusals := by
  unfold decodeByteOp at h
  split at h <;> cases h
  decide

theorem decodePlainOp_error {t : Transaction} {i : Instr} {r : Refusal} (h : decodePlainOp t i = .error r) :
    r ∈ decoderRefusals := by
  unfold decodePlainOp at h
  split_ifs at h
  · split at h <;> cases h
    decide
  · cases h
    decide

theorem decodeStringOp_error {m : Option Nat} {t : Transaction} {mk : List Byte → Instr} {r : Refusal}
    (h : decodeStringOp m t mk = .error r) : r ∈ decoderRefusals := by
  unfold decodeStringOp at h
  split_ifs at h
  · split at h
    · cases h
      decide
    · split_ifs at h
      cases h
      decide
  · cases h
    decide

/-- The decoder refuses for its own five reasons only. -/
theorem decode_error {m : Option Nat} {t : Transaction} {r : Refusal} (h : decode m t = .error r) :
    r ∈ decoderRefusals := by
  unfold decode at h
  split at h
  · exact decodeByteOp_error h
  · exact decodePlainOp_error h
  · exact decodeByteOp_error h
  · exact decodePlainOp_error h
  · exact decodeStringOp_error h
  · exact decodeStringOp_error h
  · cases h
    decide

/-- A step refuses only what the decoder refuses: no meaning does. -/
theorem step_refused {s : State} {r : Refusal} (h : step s = .refused r) : r ∈ decoderRefusals := by
  rcases step_cases s with ⟨_, hidle⟩ | ⟨_, _, r', _, hd, href⟩ | ⟨_, _, i, _, _, hexec⟩
  · cases hidle.symm.trans h
  · obtain rfl := Host.Outcome.refused.inj (href.symm.trans h)
    exact decode_error hd
  · exact absurd (hexec.symm.trans h) (exec_not_refused _ _ _)

/-- Settles O9: a refusal of a step is one of the decoder's five. -/
theorem noConcurrentAccessRefusal : Obligations.NoConcurrentAccessRefusal := by
  refine fun s => ⟨fun h => ?_, fun m h => ?_⟩
  · exact absurd (step_refused h) (by decide)
  · simpa [decoderRefusals] using step_refused h

/-! ### The PT unit's frame -/

/-- A transition of the PT unit writes `PT.buf` at index 0 for `'/'` (R211), at index `PT.len` for another byte in
`InFrame` with room (R214 to R216), and nowhere else. -/
theorem PtTransition.bufRead_eq {p : Params} {b : Byte} {u v : PtUnit} {r : Response} (ht : PtTransition p b u v r)
    {a : Nat} (h0 : b = slash → a ≠ 0)
    (hlen : b ≠ slash → u.state = .inFrame → u.len ≠ p.ptCap → a ≠ u.len) :
    bufRead v.buf a = bufRead u.buf a := by
  cases ht with
  | sof hb hc => exact bufRead_bufWrite_other _ _ _ _ (h0 hb)
  | data hb hb' hl hs => exact bufRead_bufWrite_other _ _ _ _ (hlen hb hs hl.ne)
  | eofNoCrc bytes hb hl hs hc hr =>
    exact bufRead_bufWrite_other _ _ _ _ (hlen (by rw [hb]; decide) hs hl.ne)
  | eofCrc hb hl hs hc => exact bufRead_bufWrite_other _ _ _ _ (hlen (by rw [hb]; decide) hs hl.ne)
  | ovf | idle | crcBad | crcDigit | crcOk | crcMismatch => rfl

/-- Settles O43: `onPt` writes the PT unit and the response only, and each transition of the unit writes at most one
byte of its buffer. -/
theorem ptOperationFrame : Obligations.PtOperationFrame := by
  refine ⟨fun s t b h => ?_, fun s t h => ?_⟩
  · obtain ⟨u, r, hstep, rfl⟩ := onPt_next _ _ _ h
    exact ⟨rfl, rfl, rfl, rfl, fun a h0 hlen => (ptStep_transition _ _ _ _ _ hstep).bufRead_eq h0 hlen⟩
  · obtain rfl := Host.Outcome.next.inj h
    exact ⟨rfl, rfl, rfl, rfl, rfl⟩

/-! ### The EN unit's frame -/

/-- No transition of the EN unit writes the key or its flag (R32). -/
theorem EnTransition.key_eq {p : Params} {b : Byte} {u v : EnUnit} {r : Response} (ht : EnTransition p b u v r) :
    v.key = u.key ∧ v.keyLoaded = u.keyLoaded := by cases ht <;> exact ⟨rfl, rfl⟩

/-- A transition of the EN unit writes `EN.hdr` at index 0 in `Idle` on the sentinel (R251), at index `EN.hdr_count` in
`AccumulatingHeader` (R253), and nowhere else. -/
theorem EnTransition.hdr_eq {p : Params} {b : Byte} {u v : EnUnit} {r : Response} (ht : EnTransition p b u v r)
    {i : Nat} (hi : i < 18) (h0 : u.state = .idle → b = enSentinel → i ≠ 0)
    (hcount : u.state = .accumulatingHeader → i ≠ u.hdrCount) : v.hdr[i] = u.hdr[i] := by
  cases ht with
  | sof hs hb => exact Vector.getElem_set_ne (by decide) hi (h0 hs hb).symm
  | hdrByte hs hc | hdrBad hs hc | hdrOvf hs hc | hdrOk hs hc => exact Vector.getElem_set_ne hc hi (hcount hs).symm
  | idle | ctByte | setKeyFailed | decryptFailed | delivered => rfl

/-- A transition of the EN unit writes `EN.ct` at index `EN.ct_len` in `AccumulatingTelegram` (R257), and nowhere
else. -/
theorem EnTransition.ctRead_eq {p : Params} {b : Byte} {u v : EnUnit} {r : Response} (ht : EnTransition p b u v r)
    {a : Nat} (hlen : u.state = .accumulatingTelegram → a ≠ u.ctLen) : bufRead v.ct a = bufRead u.ct a := by
  cases ht with
  | ctByte hs | setKeyFailed hs | decryptFailed _ hs | delivered _ _ hs =>
    exact bufRead_bufWrite_other _ _ _ _ (hlen hs)
  | sof | idle | hdrByte | hdrBad | hdrOvf | hdrOk => rfl

/-- A transition of the EN unit writes `EN.pt` below the length of the packet it delivers (R258), and nowhere else. -/
theorem EnTransition.ptRead_eq {p : Params} {b : Byte} {u v : EnUnit} {r : Response} (ht : EnTransition p b u v r)
    {a : Nat} (hpacket : ∀ l, r = .packet l → l.length ≤ a) : bufRead v.pt a = bufRead u.pt a := by
  cases ht with
  | delivered q plain =>
    exact bufRead_bufWriteRange_outside _ _ _ _ (.inr (by simpa using hpacket plain rfl))
  | _ => rfl

/-- Settles O55: `onEn` writes the EN unit and the response only, and each array of the unit has a frame of its own. -/
theorem enProcessByteFrame : Obligations.EnProcessByteFrame := by
  intro s t b h
  obtain ⟨u, r, hstep, rfl⟩ := onEn_next _ _ _ h
  have ht := enStep_transition _ _ _ _ _ hstep
  obtain ⟨hkey, hloaded⟩ := ht.key_eq
  exact ⟨rfl, rfl, rfl, rfl, hkey, hloaded, fun i hi h0 hcount => ht.hdr_eq hi h0 hcount, fun a => ht.ctRead_eq,
    fun a => ht.ptRead_eq⟩

/-! ### The nonce (R63) -/

/-- Settles O28: a whole header's field can be read, and the nonce is two slices of it. -/
theorem nonceIsTitleThenCounter : Obligations.NonceIsTitleThenCounter := by
  refine fun s hs => ⟨rfl, ?_⟩
  simp only [exec, execHdrNonce, hdrField_full _ _ hs, returnOrFault_ok, hdrNonceBytes_eq]

/-! ### Unwinding: a run seen by one unit -/

/-- The two conditions under which the selected transactions of a run determine all that `agree` compares: a selected
one answers alike in states that agree, and any other is invisible. -/
structure Unwinding (sel : Transaction → Bool) (agree : State → State → Prop) : Prop where
  selected : ∀ {s s' v t}, sel t = true → agree s v → transact s t = .next s' →
    ∃ v', transact v t = .next v' ∧ v'.resp = s'.resp ∧ agree s' v'
  other : ∀ {s s' v t}, sel t = false → agree s v → transact s t = .next s' → agree s' v

/-- Under the two conditions the selected transactions run alone with the responses they had, to a state that agrees. -/
theorem Unwinding.run_filter {sel : Transaction → Bool} {agree : State → State → Prop} (hu : Unwinding sel agree)
    {ts : List Transaction} {s s' v : State} {rs : List Response} (hrun : run ts s = .done rs s') (hv : agree s v) :
    ∃ v', run (ts.filter sel) v = .done (((ts.zip rs).filter fun x => sel x.1).map Prod.snd) v' ∧ agree s' v' := by
  induction ts generalizing s v rs with
  | nil =>
    obtain ⟨rfl, rfl⟩ := RunResult.done.inj hrun
    exact ⟨v, rfl, hv⟩
  | cons t ts ih =>
    obtain ⟨w, rs', ht, hrest, rfl⟩ := run_cons_done hrun
    cases hsel : sel t with
    | true =>
      obtain ⟨w', ht', hresp, hw⟩ := hu.selected hsel hv ht
      obtain ⟨v', hv', ha⟩ := ih hrest hw
      exact ⟨v', by simpa [hsel, hresp] using run_cons ht' hv', ha⟩
    | false =>
      obtain ⟨v', hv', ha⟩ := ih hrest (hu.other hsel hv ht)
      exact ⟨v', by simpa [hsel] using hv', ha⟩

/-! ### The transactions of each unit (R69) -/

/-- The PT unit's view: parameters and PT unit. -/
def agreePt (s v : State) : Prop := v.params = s.params ∧ v.pt = s.pt

/-- The EN unit's view: parameters and EN unit. -/
def agreeEn (s v : State) : Prop := v.params = s.params ∧ v.en = s.en

theorem isPtTransaction_eq (t : Transaction) : isPtTransaction t = decide ((opField t.cmd).toNat ≤ 1) := by
  refine decide_eq_decide.2 ?_
  simp only [opField, ← BitVec.toNat_inj, BitVec.toNat_ofNat]
  omega

/-- The PT transactions are those that decode to a PT operation (R81). -/
theorem isPtTransaction_decode {m : Option Nat} {t : Transaction} {i : Instr} (h : decode m t = .ok i) :
    isPtTransaction t = runsOnPt i := by
  rw [isPtTransaction_eq]
  unfold decode at h
  split at h
  · next hop => rw [hop, decodeByteOp_ok h]; rfl
  · next hop => rw [hop, decodePlainOp_ok h]; rfl
  · next hop => rw [hop, decodeByteOp_ok h]; rfl
  · next hop => rw [hop, decodePlainOp_ok h]; rfl
  · next hop => obtain ⟨str, rfl⟩ := decodeStringOp_ok h; rw [hop]; rfl
  · next hop => obtain ⟨str, rfl⟩ := decodeStringOp_ok h; rw [hop]; rfl
  · cases h

/-- A transaction that completes has been decoded and run. -/
theorem transact_next {s s' : State} {t : Transaction} (h : transact s t = .next s') :
    ∃ i, decode s.params.maxStr t = .ok i ∧ exec i { s with pending := [] } = .next s' := by
  cases hd : decode s.params.maxStr t with
  | error r => simp [transact, step, fetch, decodeFetched, hd] at h
  | ok i => exact ⟨i, rfl, (transact_decoded hd).symm.trans h⟩

/-- A PT transaction writes the PT unit and the response, with values that its view determines. -/
theorem transact_onPt {s s' : State} {t : Transaction} (ht : isPtTransaction t = true)
    (h : transact s t = .next s') :
    ∃ u r, s' = { s with pt := u, pending := [], resp := r } ∧
      ∀ v, agreePt s v → transact v t = .next { v with pt := u, pending := [], resp := r } := by
  obtain ⟨i, hd, he⟩ := transact_next h
  obtain ⟨f, hf⟩ := exec_eq_onPt ((isPtTransaction_decode hd).symm.trans ht)
  obtain ⟨u, r, hr, rfl⟩ := onPt_next _ _ _ ((hf _).symm.trans he)
  refine ⟨u, r, rfl, fun v ⟨hparams, hpt⟩ => ?_⟩
  rw [← hparams] at hd
  rw [transact_decoded hd, hf, hparams, hpt, hr, onPt_ok]

/-- Any other transaction writes the EN unit and the response, with values that its view determines. -/
theorem transact_onEn {s s' : State} {t : Transaction} (ht : isPtTransaction t = false)
    (h : transact s t = .next s') :
    ∃ u r, s' = { s with en := u, pending := [], resp := r } ∧
      ∀ v, agreeEn s v → transact v t = .next { v with en := u, pending := [], resp := r } := by
  obtain ⟨i, hd, he⟩ := transact_next h
  obtain ⟨f, hf⟩ := exec_eq_onEn (decode_isHost hd) ((isPtTransaction_decode hd).symm.trans ht)
  obtain ⟨u, r, hr, rfl⟩ := onEn_next _ _ _ ((hf _).symm.trans he)
  refine ⟨u, r, rfl, fun v ⟨hparams, hen⟩ => ?_⟩
  rw [← hparams] at hd
  rw [transact_decoded hd, hf, hparams, hen, hr, onEn_ok]

/-- The PT transactions determine the PT unit's view. -/
theorem unwinding_pt : Unwinding isPtTransaction agreePt where
  selected ht hv h := by
    obtain ⟨u, r, rfl, hsame⟩ := transact_onPt ht h
    exact ⟨_, hsame _ hv, rfl, hv.1, rfl⟩
  other ht hv h := by
    obtain ⟨u, r, rfl, _⟩ := transact_onEn ht h
    exact hv

/-- The other transactions determine the EN unit's view. -/
theorem unwinding_en : Unwinding (fun t => !isPtTransaction t) agreeEn where
  selected ht hv h := by
    obtain ⟨u, r, rfl, hsame⟩ := transact_onEn (by simpa using ht) h
    exact ⟨_, hsame _ hv, rfl, hv.1, rfl⟩
  other ht hv h := by
    obtain ⟨u, r, rfl, _⟩ := transact_onPt (by simpa using ht) h
    exact hv

/-- Settles O59: by unwinding a run for each unit's view, from the state itself. -/
theorem unitsRunIndependently : Obligations.UnitsRunIndependently := by
  intro ts s s' rs h
  obtain ⟨u, hu, _, hpt⟩ := unwinding_pt.run_filter h ⟨rfl, rfl⟩
  obtain ⟨v, hv, _, hen⟩ := unwinding_en.run_filter h ⟨rfl, rfl⟩
  exact ⟨⟨u, hu, hpt⟩, ⟨v, hv, hen⟩⟩

end Sys2Proof.Machine
end

section
/-! PROOFS. The decoder and the encoder (30_encoding.md R80 to R83, R94 to R96): one equation per operation code, what
each operand form accepts and refuses, and from these the round trips, the refusals and the textual lines. -/

namespace Sys2Proof.Machine

/-! ### The two fields of a transaction -/

@[simp] theorem opField_cmdWord (op : BitVec 4) (b : Byte) : opField (cmdWord op b) = op :=
  (Laws.OpCode.fields_cmdWord op b).1

@[simp] theorem dataField_cmdWord (op : BitVec 4) (b : Byte) : dataField (cmdWord op b) = b :=
  (Laws.OpCode.fields_cmdWord op b).2

/-! ### The operand forms (R82, R83) -/

theorem decodeByteOp_eq_ok_iff {t : Transaction} {mk : Byte → Instr} {i : Instr} :
    decodeByteOp t mk = .ok i ↔ t.str = none ∧ mk (dataField t.cmd) = i := by
  cases hs : t.str <;> simp [decodeByteOp, hs]

theorem decodePlainOp_eq_ok_iff {t : Transaction} {j i : Instr} :
    decodePlainOp t j = .ok i ↔ dataField t.cmd = 0x00#8 ∧ t.str = none ∧ j = i := by
  by_cases hd : dataField t.cmd = 0x00#8
  · cases hs : t.str <;> simp [decodePlainOp, hd, hs]
  · simp [decodePlainOp, hd]

theorem decodeStringOp_eq_ok_iff {m : Option Nat} {t : Transaction} {mk : List Byte → Instr} {i : Instr} :
    decodeStringOp m t mk = .ok i ↔
      dataField t.cmd = 0x00#8 ∧ ∃ s, t.str = some s ∧ strFits m s = true ∧ mk s = i := by
  by_cases hd : dataField t.cmd = 0x00#8
  · cases hs : t.str with
    | none => simp [decodeStringOp, hd, hs]
    | some s => by_cases hf : strFits m s = true <;> simp [decodeStringOp, hd, hs, hf]
  · simp [decodeStringOp, hd]

section Forms
variable {m : Option Nat} {cmd : BitVec 12} {str : Option (List Byte)} {s : List Byte} {i : Instr}

theorem decodeByteOp_some {mk : Byte → Instr} : decodeByteOp ⟨cmd, some s⟩ mk = .error .unexpectedOperand := rfl

theorem decodePlainOp_nonzero (hd : dataField cmd ≠ 0x00#8) : decodePlainOp ⟨cmd, str⟩ i = .error .nonzeroData :=
  if_neg hd

theorem decodePlainOp_some (hd : dataField cmd = 0x00#8) :
    decodePlainOp ⟨cmd, some s⟩ i = .error .unexpectedOperand := if_pos hd

theorem decodeStringOp_nonzero {mk : List Byte → Instr} (hd : dataField cmd ≠ 0x00#8) :
    decodeStringOp m ⟨cmd, str⟩ mk = .error .nonzeroData := if_neg hd

theorem decodeStringOp_none {mk : List Byte → Instr} (hd : dataField cmd = 0x00#8) :
    decodeStringOp m ⟨cmd, none⟩ mk = .error .missingOperand := if_pos hd

theorem decodeStringOp_tooLong {mk : List Byte → Instr} (hf : ¬ strFits m s = true) (hd : dataField cmd = 0x00#8) :
    decodeStringOp m ⟨cmd, some s⟩ mk = .error .stringTooLong := (if_pos hd).trans (if_neg hf)

/-! ### The operation codes (R81, R94) -/

theorem decode_ptByte (h : opField cmd = 0x0#4) :
    decode m ⟨cmd, str⟩ = decodeByteOp ⟨cmd, str⟩ .ptProcessByte := by
  simp [decode, h]

theorem decode_ptReset (h : opField cmd = 0x1#4) : decode m ⟨cmd, str⟩ = decodePlainOp ⟨cmd, str⟩ .ptReset := by
  simp [decode, h]

theorem decode_enByte (h : opField cmd = 0x2#4) :
    decode m ⟨cmd, str⟩ = decodeByteOp ⟨cmd, str⟩ .enProcessByte := by
  simp [decode, h]

theorem decode_enReset (h : opField cmd = 0x3#4) : decode m ⟨cmd, str⟩ = decodePlainOp ⟨cmd, str⟩ .enReset := by
  simp [decode, h]

theorem decode_enSetKey (h : opField cmd = 0x4#4) :
    decode m ⟨cmd, str⟩ = decodeStringOp m ⟨cmd, str⟩ .enSetKey := by
  simp [decode, h]

theorem decode_crc16 (h : opField cmd = 0x5#4) :
    decode m ⟨cmd, str⟩ = decodeStringOp m ⟨cmd, str⟩ .crc16Compute := by
  simp [decode, h]

end Forms

theorem decode_reserved {m : Option Nat} {t : Transaction} (h : 6 ≤ (opField t.cmd).toNat) :
    decode m t = .error .reservedOp := by
  obtain ⟨n, hn⟩ := Nat.exists_eq_add_of_le' h
  simp only [decode, hn]

/-! ### The round trips -/

section Words
variable {m : Option Nat} {t : Transaction} {i : Instr} (op : BitVec 4) (hop : (opField t.cmd).toNat = op.toNat)
include hop

/-- A transaction is its operation code, its data byte and its string: the command word holds nothing else (R80). -/
theorem transaction_eq_cmdWord : t = ⟨cmdWord op (dataField t.cmd), t.str⟩ := by
  rw [← BitVec.eq_of_toNat_eq hop, cmdWord_fields]

/-- The byte form accepts only the word of the operation code and the byte, without a string. -/
theorem decodeByteOp_ok_word {mk : Byte → Instr} (h : decodeByteOp t mk = .ok i) :
    ∃ b, mk b = i ∧ ⟨cmdWord op b, none⟩ = t := by
  obtain ⟨hs, hi⟩ := decodeByteOp_eq_ok_iff.1 h
  exact ⟨dataField t.cmd, hi, by rw [← hs, ← transaction_eq_cmdWord op hop]⟩

/-- The plain form accepts only the operation code's word with data byte 0, without a string. -/
theorem decodePlainOp_ok_word {j : Instr} (h : decodePlainOp t j = .ok i) :
    j = i ∧ ⟨cmdWord op 0x00#8, none⟩ = t := by
  obtain ⟨hd, hs, hi⟩ := decodePlainOp_eq_ok_iff.1 h
  exact ⟨hi, by rw [← hd, ← hs, ← transaction_eq_cmdWord op hop]⟩

/-- The string form accepts only the operation code's word with data byte 0 and a string that fits. -/
theorem decodeStringOp_ok_word {mk : List Byte → Instr} (h : decodeStringOp m t mk = .ok i) :
    ∃ s, strFits m s = true ∧ mk s = i ∧ ⟨cmdWord op 0x00#8, some s⟩ = t := by
  obtain ⟨hd, s, hs, hf, hi⟩ := decodeStringOp_eq_ok_iff.1 h
  exact ⟨s, hf, hi, by rw [← hd, ← hs, ← transaction_eq_cmdWord op hop]⟩

end Words

/-- What the decoder accepts is well formed and encodes to the transaction read. -/
theorem encode_of_decode {m : Option Nat} {t : Transaction} {i : Instr} (h : decode m t = .ok i) :
    i.wellFormed m = true ∧ encode i = some t := by
  unfold decode at h
  split at h
  · next hop =>
    obtain ⟨b, rfl, rfl⟩ := decodeByteOp_ok_word 0x0#4 hop h
    exact ⟨rfl, rfl⟩
  · next hop =>
    obtain ⟨rfl, rfl⟩ := decodePlainOp_ok_word 0x1#4 hop h
    exact ⟨rfl, rfl⟩
  · next hop =>
    obtain ⟨b, rfl, rfl⟩ := decodeByteOp_ok_word 0x2#4 hop h
    exact ⟨rfl, rfl⟩
  · next hop =>
    obtain ⟨rfl, rfl⟩ := decodePlainOp_ok_word 0x3#4 hop h
    exact ⟨rfl, rfl⟩
  · next hop =>
    obtain ⟨s, hf, rfl, rfl⟩ := decodeStringOp_ok_word 0x4#4 hop h
    exact ⟨hf, rfl⟩
  · next hop =>
    obtain ⟨s, hf, rfl, rfl⟩ := decodeStringOp_ok_word 0x5#4 hop h
    exact ⟨hf, rfl⟩
  · cases h

/-- A well-formed host operation's word has the operation code of its decoder arm, whose operand form accepts the
operands written. -/
theorem decode_of_encode {m : Option Nat} {i : Instr} {t : Transaction} (hw : i.wellFormed m = true)
    (he : encode i = some t) : decode m t = .ok i := by
  cases i with
  | ptProcessByte b =>
    obtain rfl := Option.some.inj he
    simp [decode_ptByte, decodeByteOp_eq_ok_iff]
  | ptReset =>
    obtain rfl := Option.some.inj he
    simp [decode_ptReset, decodePlainOp_eq_ok_iff]
  | enProcessByte b =>
    obtain rfl := Option.some.inj he
    simp [decode_enByte, decodeByteOp_eq_ok_iff]
  | enReset =>
    obtain rfl := Option.some.inj he
    simp [decode_enReset, decodePlainOp_eq_ok_iff]
  | enSetKey s =>
    obtain rfl := Option.some.inj he
    have hfits : strFits m s = true := hw
    simp [decode_enSetKey, decodeStringOp_eq_ok_iff, hfits]
  | crc16Compute s =>
    obtain rfl := Option.some.inj he
    have hfits : strFits m s = true := hw
    simp [decode_crc16, decodeStringOp_eq_ok_iff, hfits]
  | _ => cases he

/-- Settles O1: `decode_of_encode`, by cases on the instruction. -/
theorem decodeEncodeRoundTrip : Obligations.DecodeEncodeRoundTrip := fun _ _ _ => decode_of_encode

/-- Settles O2: the decoder reads host operations only, and keeps both fields and the string. -/
theorem decodedTransactionIsEncoding : Obligations.DecodedTransactionIsEncoding :=
  fun _ _ _ h => ⟨decode_isHost h, encode_of_decode h⟩

/-- Settles O3: the words are the encodings of the operations named, and decode to them as O1 says. -/
theorem sampleWordsDecode : Obligations.SampleWordsDecode :=
  ⟨decode_of_encode rfl rfl, decode_of_encode rfl rfl, decode_of_encode rfl rfl, decode_of_encode rfl rfl,
    decode_of_encode rfl rfl, decode_of_encode rfl rfl⟩

/-! ### The refusals -/

/-- Settles O4: the byte form takes any data byte; the plain form and the string form look at it first. -/
theorem dataByteOnlyForByteOperations : Obligations.DataByteOnlyForByteOperations := by
  refine fun m cmd str => ⟨fun hop => ?_, fun hop => ?_, fun hop hd => ?_⟩
  · rw [decode_ptByte hop, decodeByteOp_eq_ok_iff]
    exact ⟨rfl, rfl⟩
  · rw [decode_enByte hop, decodeByteOp_eq_ok_iff]
    exact ⟨rfl, rfl⟩
  · simp only [List.mem_cons, List.not_mem_nil, or_false] at hop
    obtain hop | hop | hop | hop := hop
    · rw [decode_ptReset hop, decodePlainOp_nonzero hd]
    · rw [decode_enReset hop, decodePlainOp_nonzero hd]
    · rw [decode_enSetKey hop, decodeStringOp_nonzero hd]
    · rw [decode_crc16 hop, decodeStringOp_nonzero hd]

/-- Settles O5: each clause is one case of an operand form: a string where none belongs (the byte and the plain form),
none where one is needed, one too long, one that fits (the string form). -/
theorem stringOperandRefusals : Obligations.StringOperandRefusals := by
  refine fun m cmd s => ⟨fun hop => ?_, fun hcmd => ?_, fun hcmd => ?_, fun hcmd hlong => ?_, fun hfits => ?_⟩
  · simp only [List.mem_cons, List.not_mem_nil, or_false] at hop
    obtain hop | hop := hop
    · rw [decode_ptByte hop, decodeByteOp_some]
    · rw [decode_enByte hop, decodeByteOp_some]
  · simp only [List.mem_cons, List.not_mem_nil, or_false] at hcmd
    obtain rfl | rfl := hcmd
    · rw [decode_ptReset, decodePlainOp_some] <;> rfl
    · rw [decode_enReset, decodePlainOp_some] <;> rfl
  · simp only [List.mem_cons, List.not_mem_nil, or_false] at hcmd
    obtain rfl | rfl := hcmd
    · rw [decode_enSetKey, decodeStringOp_none] <;> rfl
    · rw [decode_crc16, decodeStringOp_none] <;> rfl
  · obtain ⟨k, hk, hlt⟩ := hlong
    have hnot : ¬ strFits m s = true := fun hf => absurd ((strFits_iff m s).1 hf k hk) (Nat.not_le.2 hlt)
    simp only [List.mem_cons, List.not_mem_nil, or_false] at hcmd
    obtain rfl | rfl := hcmd
    · rw [decode_enSetKey, decodeStringOp_tooLong hnot] <;> rfl
    · rw [decode_crc16, decodeStringOp_tooLong hnot] <;> rfl
  · have hf : strFits m s = true := (strFits_iff m s).2 hfits
    exact ⟨decode_of_encode hf rfl, decode_of_encode hf rfl⟩

/-- Settles O6: none of the decoder's six arms has an operation code of 6 or more. -/
theorem reservedOperationRefused : Obligations.ReservedOperationRefused :=
  fun _ _ h => decode_reserved h

/-! ### The step -/

/-- Settles O7: a step takes the first pending transaction, and what the decoder answers decides. -/
theorem stepRunsDecodedInstruction : Obligations.StepRunsDecodedInstruction := by
  intro s t rest hp
  have hfetch := fetch_cons s t rest hp
  refine ⟨fun i hd => ?_, fun r hd => ?_⟩
  · simp only [step, hfetch, decodeFetched, hd]
  · simp only [step, hfetch, decodeFetched, hd]

/-! ### The textual lines (R95, R96) -/

/-- The command word as R95 writes it: `op` at bits 11:8, OR the byte. -/
theorem or_setWidth_eq_cmdWord (op : BitVec 4) (b : Byte) :
    (op ++ 0x00#8 : BitVec 12) ||| b.setWidth 12 = cmdWord op b := by
  apply BitVec.eq_of_getLsbD_eq
  intro i hi
  simp only [cmdWord, BitVec.getLsbD_or, BitVec.getLsbD_append, BitVec.getLsbD_setWidth]
  by_cases h : i < 8
  · simp [h, hi]
  · simp [h, BitVec.getLsbD_of_ge b i (Nat.not_lt.1 h)]

theorem asmPtByte_eq (b : Byte) : asmPtByte b = ⟨cmdWord 0x0#4 b, none⟩ :=
  congrArg (Transaction.mk · none) (or_setWidth_eq_cmdWord 0x0#4 b)

theorem asmEnByte_eq (b : Byte) : asmEnByte b = ⟨cmdWord 0x2#4 b, none⟩ :=
  congrArg (Transaction.mk · none) (or_setWidth_eq_cmdWord 0x2#4 b)

/-- A line of one transaction, the encoding of a well-formed operation, decodes to that operation. -/
theorem map_decode_singleton {m : Option Nat} {i : Instr} {t : Transaction} (hw : i.wellFormed m = true)
    (he : encode i = some t) : [t].map (decode m) = [.ok i] :=
  congrArg (fun x => [x]) (decode_of_encode hw he)

/-- Settles O60: each line of R95 is the encoding of its operation; a pseudo-instruction of R96 maps the byte line
over its bytes. -/
theorem notationExpandsToTransactions : Obligations.NotationExpandsToTransactions := by
  refine ⟨fun m b => ⟨?_, ?_⟩, fun m => ⟨?_, ?_⟩, fun s => ⟨?_, ?_⟩, fun s => ?_⟩
  · exact map_decode_singleton rfl (congrArg some (asmPtByte_eq b).symm)
  · exact map_decode_singleton rfl (congrArg some (asmEnByte_eq b).symm)
  · exact map_decode_singleton rfl rfl
  · exact map_decode_singleton rfl rfl
  · exact map_decode_singleton rfl rfl
  · exact map_decode_singleton rfl rfl
  · have hpt : s.map asmPtByte = ptFeed s := List.map_congr_left fun b _ => asmPtByte_eq b
    have hen : s.map asmEnByte = enFeed s := List.map_congr_left fun b _ => asmEnByte_eq b
    exact ⟨hpt, hpt, hen, hen⟩

end Sys2Proof.Machine
end

section
/-! PROOFS. A whole encrypted frame (30_encoding.md R89, R91, 45_encrypted_sync.md R251 to R258, R264, R265): what each
byte of it does to the EN unit, and the run of all of them. -/

namespace Sys2Proof.Machine

/-! ### Bytes that answer None -/

/-- The bytes take the EN unit from `u` to `v`, and each answers None. -/
inductive EnSilent (p : Params) : List Byte → EnUnit → EnUnit → Prop where
  | nil (u : EnUnit) : EnSilent p [] u u
  | cons {b : Byte} {l : List Byte} {u v w : EnUnit} (hb : enStep p b u = .ok (v, .none)) (hl : EnSilent p l v w) :
      EnSilent p (b :: l) u w

theorem EnSilent.single {p : Params} {b : Byte} {u v : EnUnit} (h : enStep p b u = .ok (v, .none)) :
    EnSilent p [b] u v := .cons h (.nil v)

theorem EnSilent.append {p : Params} {l k : List Byte} {u v w : EnUnit} (hl : EnSilent p l u v)
    (hk : EnSilent p k v w) : EnSilent p (l ++ k) u w := by
  induction hl with
  | nil => exact hk
  | cons hb _ ih => exact .cons hb (ih hk)

/-- One byte for the EN unit, as a transaction (R80, R250). -/
theorem transact_enStep {s : State} {b : Byte} {u : EnUnit} {r : Response}
    (h : enStep s.params b s.en = .ok (u, r)) :
    transact s ⟨cmdWord 0x2#4 b, none⟩ = .next { s with en := u, pending := [], resp := r } := by
  rw [transact_en]
  exact congrArg (onEn { s with pending := [] }) h

/-- Silent bytes as a run: as many responses None, and the PT unit and the parameters are as before. -/
theorem EnSilent.run {l : List Byte} {s : State} {v : EnUnit} (h : EnSilent s.params l s.en v) :
    ∃ s', Machine.run (enFeed l) s = .done (List.replicate l.length .none) s' ∧
      s'.en = v ∧ s'.pt = s.pt ∧ s'.params = s.params := by
  generalize hp : s.params = p at h
  generalize hu : s.en = u at h
  induction h generalizing s with
  | nil u => exact ⟨s, rfl, hu, rfl, hp⟩
  | cons hb _ ih =>
    subst hp hu
    obtain ⟨s', hrun, hen, hpt, hparams⟩ := ih (s := { s with en := _, pending := [], resp := .none }) rfl rfl
    exact ⟨s', run_cons (transact_enStep hb) hrun, hen, hpt, hparams⟩

/-! ### The unit's rules for a frame that goes well (R251, R253, R256, R257) -/

section Rules
variable {p : Params} {b : Byte} {u : EnUnit}

/-- E_SOF: the sentinel in `Idle` is the header's first byte. -/
theorem enStep_sof (hs : u.state = .idle) :
    enStep p enSentinel u = .ok ({ u with
      state := .accumulatingHeader, hdr := u.hdr.set 0 enSentinel, hdrCount := 1, ctLen := 0 }, .none) := by
  simp only [enStep, hs]
  rfl

/-- E_HDR_BYTE: a header byte before the last. -/
theorem enStep_hdrByte (hs : u.state = .accumulatingHeader) (hc : u.hdrCount < 17) :
    enStep p b u = .ok (enAfterHeader b u (Nat.lt_succ_of_lt hc), .none) := by
  have hnot : ¬ hdrComplete (enAfterHeader b u (Nat.lt_succ_of_lt hc)) = true := by
    simp only [hdrComplete, decide_eq_true_eq]
    omega
  simp only [enStep, hs, eHdrByte, hdrAddByte_room _ _ (Nat.lt_succ_of_lt hc), bind, Except.bind, if_neg hnot,
    respondNone]

/-- E_HDR_OK: the last header byte, with a consistent header and a telegram that fits. -/
theorem enStep_hdrOk (hs : u.state = .accumulatingHeader) (hc : u.hdrCount = 17)
    (hcons : hdrConsistent p (u.hdr.set 17 b) = true) (htw : hdrTw p (u.hdr.set 17 b) ≤ p.enCap) :
    enStep p b u =
      .ok ({ u with state := .accumulatingTelegram, hdr := u.hdr.set 17 b, hdrCount := 18 }, .none) := by
  have hadd : hdrAddByte b u = .ok { u with hdr := u.hdr.set 17 b, hdrCount := 18 } := by
    simp [hdrAddByte, hc]
  simp only [enStep, hs, eHdrByte, hadd, bind, Except.bind]
  simp [hdrComplete, hdrField, hcons, Int.not_lt.2 htw, eHdrOk, respondNone]

/-- E_CT_BYTE before the last byte of the telegram. -/
theorem enStep_ctByte (hs : u.state = .accumulatingTelegram) (hn : u.hdrCount = 18) (hl : u.ctLen < p.enCap)
    (htw : (u.ctLen : Int) + 1 < hdrTw p u.hdr) : enStep p b u = .ok (enAfterCipher b u, .none) := by
  have hwrite : memWrite p.enCap u.ct u.ctLen [b] = .ok (bufWrite u.ct u.ctLen b) := memWrite_inside _ _ _ _ hl
  simp [enStep, hs, eCtByte, hwrite, bind, Except.bind, hdrField_full, hn, htw, respondNone]

end Rules

/-- A range write one byte longer. -/
theorem bufWriteRange_snoc (m : Buf) (i : Nat) (l : List Byte) (b : Byte) :
    bufWriteRange m i (l ++ [b]) = bufWrite (bufWriteRange m i l) (i + l.length) b := by
  induction l generalizing m i with
  | nil => rfl
  | cons c l ih =>
    rw [List.cons_append, bufWriteRange, bufWriteRange, ih, List.length_cons, Nat.add_assoc, Nat.add_comm 1]

/-! ### The unit while a frame comes in -/

/-- The header register after the first `k` bytes of `h` have been stored over `g`. -/
def hdrPrefix (h g : Header) (k : Nat) : Header := Vector.ofFn fun i => if i.val < k then h[i] else g[i]

theorem hdrPrefix_zero (h g : Header) : hdrPrefix h g 0 = g := by
  ext i hi
  simp [hdrPrefix]

theorem hdrPrefix_full (h g : Header) : hdrPrefix h g 18 = h := by
  ext i hi
  simp [hdrPrefix]

/-- Storing the next byte of `h` makes the prefix one byte longer. -/
theorem hdrPrefix_set (h g : Header) (k : Nat) (hk : k < 18) :
    (hdrPrefix h g k).set k h[k] = hdrPrefix h g (k + 1) := by
  ext i hi
  simp only [hdrPrefix, Vector.getElem_set, Vector.getElem_ofFn, Fin.getElem_fin]
  by_cases hik : k = i
  · subst hik
    simp
  · have hlt : i < k + 1 ↔ i < k := by omega
    simp only [hik, if_false, hlt]

theorem header_take_succ (h : Header) {k : Nat} (hk : k < 18) :
    h.toList.take (k + 1) = h.toList.take k ++ [h[k]] := by
  rw [List.take_succ_eq_append_getElem (by simpa using hk), Vector.getElem_toList]

/-- The unit in `AccumulatingHeader` after `k` bytes of the header `h`, fed to the unit `u` in `Idle`. -/
def enInHeader (u : EnUnit) (h : Header) (k : Nat) : EnUnit :=
  { u with state := .accumulatingHeader, hdr := hdrPrefix h u.hdr k, hdrCount := k, ctLen := 0 }

/-- The unit in `AccumulatingTelegram` after the header `h` and the bytes `l`, fed to the unit `u` in `Idle`. -/
def enInTelegram (u : EnUnit) (h : Header) (l : List Byte) : EnUnit :=
  { u with
    state := .accumulatingTelegram, hdr := h, hdrCount := 18, ct := bufWriteRange u.ct 0 l, ctLen := l.length }

section Frame
variable {p : Params} {u : EnUnit} {h : Header}

/-- A consistent header starts with the sentinel (R156). -/
theorem hdrConsistent_sentinel (hc : hdrConsistent p h = true) : h[0] = enSentinel := by
  obtain ⟨htag, _⟩ := of_decide_eq_true hc
  exact htag

/-- The sentinel starts the header. -/
theorem enStep_start (hs : u.state = .idle) (h0 : h[0] = enSentinel) :
    enStep p h[0] u = .ok (enInHeader u h 1, .none) := by
  have hset := hdrPrefix_set h u.hdr 0 (by omega)
  rw [hdrPrefix_zero, h0] at hset
  rw [h0, enStep_sof hs, hset]
  rfl

/-- A header byte before the last makes the prefix one byte longer. -/
theorem enStep_header {k : Nat} (hk : k < 17) :
    enStep p h[k] (enInHeader u h k) = .ok (enInHeader u h (k + 1), .none) := by
  rw [enStep_hdrByte rfl hk]
  simp only [enInHeader, enAfterHeader, hdrPrefix_set]

/-- The last byte of a consistent header whose telegram fits opens the telegram. -/
theorem enStep_headerLast (hc : hdrConsistent p h = true) (hcap : hdrTw p h ≤ p.enCap) :
    enStep p h[17] (enInHeader u h 17) = .ok (enInTelegram u h [], .none) := by
  have hset : (enInHeader u h 17).hdr.set 17 h[17] = h :=
    (hdrPrefix_set h u.hdr 17 (by omega)).trans (hdrPrefix_full h u.hdr)
  rw [enStep_hdrOk rfl rfl (by rwa [hset]) (by rwa [hset]), hset]
  rfl

/-- A byte of the telegram before the last is appended to the ciphertext buffer. -/
theorem enStep_telegram {l : List Byte} {b : Byte} (hcap : hdrTw p h ≤ p.enCap)
    (htw : ((l ++ [b]).length : Int) < hdrTw p h) :
    enStep p b (enInTelegram u h l) = .ok (enInTelegram u h (l ++ [b]), .none) := by
  simp only [List.length_append, List.length_singleton, Nat.cast_add, Nat.cast_one] at htw
  have hlen : l.length < p.enCap := by omega
  rw [enStep_ctByte (u := enInTelegram u h l) rfl rfl hlen htw]
  simp only [enInTelegram, enAfterCipher, bufWriteRange_snoc, Nat.zero_add, List.length_append, List.length_singleton]

/-- The first bytes of a header that starts with the sentinel. -/
theorem enSilent_header (hs : u.state = .idle) (h0 : h[0] = enSentinel) {k : Nat} (hk : k < 17) :
    EnSilent p (h.toList.take (k + 1)) u (enInHeader u h (k + 1)) := by
  induction k with
  | zero =>
    rw [header_take_succ h (by omega)]
    exact .single (enStep_start hs h0)
  | succ k ih =>
    rw [header_take_succ h (by omega)]
    exact (ih (by omega)).append (.single (enStep_header hk))

/-- A whole consistent header whose telegram fits. -/
theorem enSilent_wholeHeader (hs : u.state = .idle) (hc : hdrConsistent p h = true) (hcap : hdrTw p h ≤ p.enCap) :
    EnSilent p h.toList u (enInTelegram u h []) := by
  have hall : h.toList = h.toList.take 17 ++ [h[17]] := by
    rw [← header_take_succ h (by omega), List.take_of_length_le (by simp)]
  rw [hall]
  exact (enSilent_header hs (hdrConsistent_sentinel hc) (by omega)).append (.single (enStep_headerLast hc hcap))

/-- The bytes of the telegram before the last. -/
theorem enSilent_telegram {l : List Byte} (hcap : hdrTw p h ≤ p.enCap) (htw : (l.length : Int) < hdrTw p h) :
    EnSilent p l (enInTelegram u h []) (enInTelegram u h l) := by
  induction l using List.reverseRecOn with
  | nil => exact .nil _
  | append_singleton l b ih =>
    have hl : (l.length : Int) < hdrTw p h := by
      simp only [List.length_append, List.length_singleton] at htw
      omega
    exact (ih hl).append (.single (enStep_telegram hcap htw))

/-! ### The last byte (R258) -/

/-- The response to a frame's last byte, from the oracle's answer (R258). -/
def frameResponse : Option (List Byte) → Response
  | some plain => .packet plain
  | none => .error .decryptionFailed

/-- The last byte of the telegram, with a key loaded and accepted and a typed oracle. -/
theorem enStep_telegramLast {l : List Byte} {b : Byte} (hk : u.keyLoaded = true) (ht : oracleTyped p = true)
    (ha : aeadSetkey p u.key = true) (hmin : 26 ≤ hdrTw p h) (hcap : hdrTw p h ≤ p.enCap)
    (htw : ((l ++ [b]).length : Int) = hdrTw p h) :
    ∃ v : EnUnit, v.state = .idle ∧ enStep p b (enInTelegram u h l) =
      .ok (v, frameResponse (aeadDecrypt p (frameQuery { u with hdr := h } (l ++ [b])))) := by
  have hlen : (l ++ [b]).length = l.length + 1 := List.length_append
  have hfit : l.length < p.enCap := by omega
  have hlast : enStep p b (enInTelegram u h l) = eCtDone p (enAfterCipher b (enInTelegram u h l)) :=
    eCtByte_last p b _ rfl hfit (by simp only [enInTelegram]; omega)
  have hread : bufReadRange (enAfterCipher b (enInTelegram u h l)).ct 0 (l ++ [b]).length = some (l ++ [b]) := by
    simpa only [enInTelegram, bufWriteRange_snoc, Nat.zero_add] using bufReadRange_bufWriteRange u.ct 0 (l ++ [b])
  have hquery : enQuery p { enAfterCipher b (enInTelegram u h l) with state := .idle } =
      .ok (frameQuery { u with hdr := h } (l ++ [b])) :=
    enQuery_frame p _ (l ++ [b]) rfl htw (by omega) (by omega) hread
  rw [hlast, eCtDone_called p (enAfterCipher b (enInTelegram u h l)) _ hk ha hquery]
  cases hd : aeadDecrypt p (frameQuery { u with hdr := h } (l ++ [b])) with
  | none => exact ⟨_, rfl, rfl⟩
  | some plain =>
    have hplain := aeadDecrypt_length p _ plain ht hd
    have hct : plain.length ≤ p.enCap := by
      rw [hplain, frameQuery, List.length_take]
      omega
    simp only [hplain, ne_eq, not_true, if_false]
    rw [if_neg (by omega)]
    exact ⟨_, rfl, rfl⟩

end Frame

/-! ### The frame -/

/-- Settles O56: every byte but the last is silent (R251, R253, R256, R257), and the last answers as the oracle says
(R258). -/
theorem encryptedFrameDelivered : Obligations.EncryptedFrameDelivered := by
  intro s h l _ hs hk ht ha hc hcap hlen
  have hmin := hdrTw_of_consistent hc
  obtain ⟨d, b, rfl⟩ : ∃ d b, l = d ++ [b] := by
    have hne : l ≠ [] := by
      rintro rfl
      rw [List.length_nil, Nat.cast_zero] at hlen
      omega
    exact ⟨_, _, (List.dropLast_append_getLast hne).symm⟩
  have hd : (d.length : Int) < hdrTw s.params h := by
    simp only [List.length_append, List.length_singleton] at hlen
    omega
  obtain ⟨w, hrun, hen, hpt, hparams⟩ :=
    ((enSilent_wholeHeader hs hc hcap).append (enSilent_telegram hcap hd)).run
  obtain ⟨v, hidle, hlast⟩ := enStep_telegramLast hk ht ha hmin hcap hlen
  rw [← hparams, ← hen] at hlast
  have hall := run_append hrun (run_cons (transact_enStep hlast) (run_nil _))
  have hfeed : enFeed (h.toList ++ (d ++ [b])) = enFeed (h.toList ++ d) ++ enFeed [b] := by
    simp only [enFeed, List.map_append, List.append_assoc]
  have hcount : 17 + (d ++ [b]).length = (h.toList ++ d).length := by
    simp only [List.length_append, List.length_singleton, Vector.length_toList]
    omega
  rw [hfeed, hcount, ← hparams]
  exact ⟨_, hall, hidle, hpt⟩

end Sys2Proof.Machine
end

section
/-! PROOFS. The CRC engine (40_crc16.md R110 to R112): `CRC16_STEP` as eight repeats of one shift, `CRC16_COMPUTE` as a
fold, and the CRC of the PT frame under one append. -/

namespace Sys2Proof.Machine

/-! ### The byte step (R110) -/

/-- The last of the shifts taken apart, where the definition takes the first. -/
theorem crcShifts_succ_last (n : Nat) (c : Word) : crcShifts (n + 1) c = crcShift (crcShifts n c) := by
  induction n generalizing c with
  | zero => rfl
  | succ n ih => exact ih (crcShift c)

theorem crcShifts_eq_repeat (n : Nat) (c : Word) : crcShifts n c = Nat.repeat crcShift n c := by
  induction n with
  | zero => rfl
  | succ n ih => rw [crcShifts_succ_last, ih, Nat.repeat]

theorem exec_crc16Step (crc : Word) (b : Byte) (s : State) :
    exec (.crc16Step crc b) s = .next { s with ret := .word (crc16Step crc b) } := rfl

/-- A zero byte leaves the zero value (R110). -/
theorem crc16Step_zero : crc16Step 0x0000#16 0x00#8 = 0x0000#16 := by decide

/-- Settles O16: the model's eight shifts are the eight repeats of R110's step. -/
theorem crcStepReturnsEightShifts : Obligations.CrcStepReturnsEightShifts := by
  refine ⟨fun crc b s => ?_, crc16Step_zero, by decide, by decide, fun crc b => rfl⟩
  rw [exec_crc16Step, crc16Step, crcShifts_eq_repeat]
  rfl

/-! ### The fold (R111) -/

theorem exec_crc16Compute (str : List Byte) (s : State) :
    exec (.crc16Compute str) s = .next { s with resp := .crc (crc16 str) } := rfl

theorem encode_crc16Compute (str : List Byte) : encode (.crc16Compute str) = some ⟨0x500#12, some str⟩ := rfl

/-- Zero bytes leave the zero value (R111). -/
theorem crc16_replicate_zero (n : Nat) : crc16 (List.replicate n 0x00#8) = 0x0000#16 := by
  induction n with
  | zero => rfl
  | succ n ih => rwa [List.replicate_succ, crc16, crc16From_cons, crc16Step_zero]

/-- Settles O17: the fold laws of the engine, zero bytes by induction on their number, and the rule's two values. -/
theorem crcComputeAnswersFold : Obligations.CrcComputeAnswersFold :=
  ⟨fun str s => ⟨encode_crc16Compute str, exec_crc16Compute str s⟩, crc16From_append 0x0000#16, crc16_replicate_zero,
    by decide +kernel, by decide +kernel⟩

/-! ### The running value (R112) -/

/-- Settles O18: an append makes the frame one byte longer, and the fold takes that byte last. -/
theorem runningCrcFollowsBuffer : Obligations.RunningCrcFollowsBuffer := by
  intro p u v b l _ hframe happend
  obtain ⟨_, hread⟩ := ptFrame_ok p u l hframe
  obtain ⟨hroom, rfl⟩ := ptAppend_ok p b u v happend
  exact ⟨l ++ [b], ptFrame_snoc p u b l hroom hread, crc16_snoc l b⟩

end Sys2Proof.Machine
end

section
/-! PROOFS. The hex key codec (41_key_codec.md R130, R131): the value of every byte, the answers of `KEY_DECODE`, and
the dependence of those answers on digit values alone. -/

namespace Sys2Proof.Machine

/-! ### The digit (R130) -/

theorem exec_hexNibble (c : Byte) (s : State) :
    exec (.hexNibble c) s = .next { s with ret := .nibble (hexval c) } := rfl

theorem hexval_decimal {c : Byte} (h : 0x30 ≤ c.toNat ∧ c.toNat ≤ 0x39) :
    hexval c = some (BitVec.ofNat 4 (c.toNat - 0x30)) := if_pos h

theorem hexval_upper {c : Byte} (h : 0x41 ≤ c.toNat ∧ c.toNat ≤ 0x46) :
    hexval c = some (BitVec.ofNat 4 (c.toNat - 0x41 + 10)) := by
  rw [hexval, if_neg (by omega), if_pos h]

theorem hexval_lower {c : Byte} (h : 0x61 ≤ c.toNat ∧ c.toNat ≤ 0x66) :
    hexval c = some (BitVec.ofNat 4 (c.toNat - 0x61 + 10)) := by
  rw [hexval, if_neg (by omega), if_neg (by omega), if_pos h]

theorem hexval_outside {c : Byte} (h : c.toNat < 0x30 ∨ (0x39 < c.toNat ∧ c.toNat < 0x41) ∨
    (0x46 < c.toNat ∧ c.toNat < 0x61) ∨ 0x66 < c.toNat) : hexval c = none := by
  rw [hexval, if_neg (by omega), if_neg (by omega), if_neg (by omega)]

/-- A value below 16 survives being held in a nibble. -/
theorem exists_nibble_toNat {r : Option Nibble} {n : Nat} (hr : r = some (BitVec.ofNat 4 n)) (hn : n < 16) :
    ∃ d, r = some d ∧ d.toNat = n :=
  ⟨_, hr, (BitVec.toNat_ofNat n 4).trans (Nat.mod_eq_of_lt hn)⟩

/-- Settles O19: each range of R130 has its value, below 16, and no range holds a byte of the gaps. -/
theorem hexNibbleValueOfEveryByte : Obligations.HexNibbleValueOfEveryByte := by
  intro c s
  refine ⟨rfl, hexval c, exec_hexNibble c s, fun h => ?_, fun h => ?_, fun h => ?_, hexval_outside⟩
  · exact exists_nibble_toNat (hexval_decimal h) (by omega)
  · exact exists_nibble_toNat (hexval_upper h) (by omega)
  · exact exists_nibble_toNat (hexval_lower h) (by omega)

/-! ### The key (R131) -/

theorem exec_keyDecode (str : List Byte) (s : State) :
    exec (.keyDecode str) s = .next { s with ret := keyResult (keyDecode str) } := rfl

theorem digitOf_of_hexval {c : Byte} {x : Nibble} (h : hexval c = some x) : digitOf c = x := by
  rw [digitOf, h, Option.getD_some]

theorem keyBytes_getElem {s : List Byte} (h : s.length = 32) {i : Nat} (hi : i < 16) :
    (keyBytes s h)[i] = hexPair (digitOf s[2 * i]) (digitOf s[2 * i + 1]) :=
  Vector.getElem_ofFn hi

/-- Byte `i` of a key pairs the digits at `2 * i` and `2 * i + 1`, the first the high nibble (log 18). -/
theorem keyBytes_toNat {s : List Byte} (h : s.length = 32) {i : Nat} (hi : i < 16) {a b : Byte} {x y : Nibble}
    (ha : s[2 * i]? = some a) (hb : s[2 * i + 1]? = some b) (hx : hexval a = some x) (hy : hexval b = some y) :
    (keyBytes s h)[i].toNat = x.toNat * 16 + y.toNat := by
  obtain ⟨_, rfl⟩ := List.getElem?_eq_some_iff.1 ha
  obtain ⟨_, rfl⟩ := List.getElem?_eq_some_iff.1 hb
  rw [keyBytes_getElem h hi, digitOf_of_hexval hx, digitOf_of_hexval hy, hexPair_toNat]

/-- Settles O20: the three answers of `KEY_DECODE`, and the key's bytes pair by pair. -/
theorem keyDecodeReturns : Obligations.KeyDecodeReturns := by
  intro str s
  refine ⟨rfl, fun hl => ?_, fun hl hx => ?_, fun hl hx => ⟨keyBytes str hl, ?_, ?_⟩⟩
  · rw [exec_keyDecode, keyDecode_length hl, keyResult]
  · rw [exec_keyDecode, keyDecode_notHex hl hx, keyResult]
  · rw [exec_keyDecode, keyDecode_hex hl hx, keyResult]
  · exact fun i hi a b x y => keyBytes_toNat hl hi

/-! ### Case does not matter (R92) -/

/-- Some character is no hex digit exactly when the list of values holds NONE. -/
theorem none_mem_map_hexval {s : List Byte} : none ∈ s.map hexval ↔ ∃ c ∈ s, hexval c = none := List.mem_map

theorem digitOf_congr {a b : List Byte} (h : a.map hexval = b.map hexval) {i : Nat} (ha : i < a.length)
    (hb : i < b.length) : digitOf a[i] = digitOf b[i] := by
  have hv : hexval a[i] = hexval b[i] := by simpa [ha, hb] using congrArg (·[i]?) h
  rw [digitOf, hv, digitOf]

theorem keyBytes_congr {a b : List Byte} (h : a.map hexval = b.map hexval) (ha : a.length = 32) (hb : b.length = 32) :
    keyBytes a ha = keyBytes b hb := by
  ext1 i hi
  rw [keyBytes_getElem ha hi, keyBytes_getElem hb hi, digitOf_congr h, digitOf_congr h]

/-- Settles O21: the length, the presence of a NONE and the key's bytes are all functions of the list of values. -/
theorem keyDecodeIgnoresCase : Obligations.KeyDecodeIgnoresCase := by
  intro a b h
  have hlen : a.length = b.length := by simpa using congrArg List.length h
  by_cases hb : b.length = 32
  · have ha : a.length = 32 := hlen.trans hb
    by_cases hn : none ∈ b.map hexval
    · rw [keyDecode_notHex hb (none_mem_map_hexval.1 hn), keyDecode_notHex ha (none_mem_map_hexval.1 (h ▸ hn))]
    · have hexDigits {s : List Byte} (hs : s.map hexval = b.map hexval) : ∀ c ∈ s, hexval c ≠ none :=
        fun c hc hv => hn (hs ▸ none_mem_map_hexval.2 ⟨c, hc, hv⟩)
      rw [keyDecode_hex ha (hexDigits h), keyDecode_hex hb (hexDigits rfl), keyBytes_congr h ha hb]
  · rw [keyDecode_length hb, keyDecode_length (hlen ▸ hb)]

end Sys2Proof.Machine
end

section
/-! PROOFS. The header operations (42_header.md R150 to R156, R158): the six operations on a header with room, on a
whole header and on an incomplete one, and the telegram length on its three ranges. -/

namespace Sys2Proof.Machine

/-! ### The register (R151, R152) -/

/-- Settles O23: the model's reset is the update of R151, and the operation is internal (R82). -/
theorem headerResetClearsCount : Obligations.HeaderResetClearsCount := fun _ => ⟨rfl, rfl⟩

theorem exec_hdrAddByte (b : Byte) (s : State) : exec (.hdrAddByte b) s = updateEn s (hdrAddByte b s.en) := rfl

/-- A 19th byte overruns the header (R152). -/
theorem hdrAddByte_overrun {b : Byte} {u : EnUnit} (h : 18 ≤ u.hdrCount) : hdrAddByte b u = .error .hdrOverrun :=
  dif_neg (Nat.not_lt.2 h)

/-- Settles O24: with room the byte is stored at the count, and a full header has none. -/
theorem headerAddByteAppends : Obligations.HeaderAddByteAppends := by
  refine fun s b => ⟨rfl, fun hroom => ⟨s.en.hdr.set s.en.hdrCount b hroom, ?_, fun i hi => ?_⟩, fun hfull => ?_⟩
  · rw [exec_hdrAddByte, hdrAddByte_room b s.en hroom, updateEn_ok]
  · simp only [Vector.getElem_set, eq_comm]
  · rw [exec_hdrAddByte, hdrAddByte_overrun hfull.ge, updateEn_error]

/-! ### Whole and incomplete headers (R153, R154) -/

theorem exec_hdrIsComplete (s : State) : exec .hdrIsComplete s = .next { s with ret := .bool (hdrComplete s.en) } := rfl

theorem hdrComplete_iff (u : EnUnit) : hdrComplete u = true ↔ u.hdrCount = 18 := decide_eq_true_iff

/-- Settles O25: the returned Boolean is the model's test of the count. -/
theorem headerCompleteIffEighteen : Obligations.HeaderCompleteIffEighteen :=
  fun s => ⟨rfl, hdrComplete s.en, exec_hdrIsComplete s, hdrComplete_iff s.en⟩

theorem exec_hdrTelegramWithTagLength (s : State) :
    exec .hdrTelegramWithTagLength s = returnOrFault s (hdrField s.en fun h => .int (hdrTw s.params h)) := rfl

theorem exec_hdrCheckConsistency (s : State) :
    exec .hdrCheckConsistency s = returnOrFault s (hdrField s.en fun h => .bool (hdrConsistent s.params h)) := rfl

theorem exec_hdrNonce (s : State) :
    exec .hdrNonce s = returnOrFault s (hdrField s.en fun h => .bytes (hdrNonceBytes h)) := rfl

/-- No field can be read before the header is whole (R154). -/
theorem hdrField_incomplete {α : Type} {u : EnUnit} (f : Header → α) (h : u.hdrCount < 18) :
    hdrField u f = .error .hdrIncomplete :=
  if_neg fun hc => h.ne ((hdrComplete_iff u).1 hc)

/-- Settles O29: each of the three operations is one field read. -/
theorem fieldReadNeedsWholeHeader : Obligations.FieldReadNeedsWholeHeader := by
  refine fun s h => ⟨?_, ?_, ?_⟩
  · rw [exec_hdrTelegramWithTagLength, hdrField_incomplete _ h, returnOrFault_error]
  · rw [exec_hdrCheckConsistency, hdrField_incomplete _ h, returnOrFault_error]
  · rw [exec_hdrNonce, hdrField_incomplete _ h, returnOrFault_error]

/-! ### The telegram length (R155) -/

section Length
variable {p : Params} {h : Header}

theorem hdrTotalLength_cast (h : Header) : (hdrTotalLength h : Int) = (h[11].toNat : Int) * 256 + h[12].toNat := by
  rw [hdrTotalLength, Nat.cast_add, Nat.cast_mul, Nat.cast_ofNat]

/-- Two bytes hold the length (R62). -/
theorem hdrTotalLength_lt (h : Header) : hdrTotalLength h < 65536 := by
  have hhigh := h[11].isLt
  have hlow := h[12].isLt
  rw [hdrTotalLength]
  omega

theorem hdrTw_exact (hw : p.twtlWrap = false) : hdrTw p h = (hdrTotalLength h : Int) - 5 := by
  rw [hdrTw, hw, if_neg Bool.false_ne_true]

theorem hdrTw_wrap (hw : p.twtlWrap = true) : hdrTw p h = ((hdrTotalLength h : Int) - 5) % 65536 := by
  rw [hdrTw, if_pos hw]

/-- The wrap changes nothing from a length of 5 on. -/
theorem hdrTw_wrap_of_five_le (hw : p.twtlWrap = true) (hlen : 5 ≤ hdrTotalLength h) :
    hdrTw p h = (hdrTotalLength h : Int) - 5 := by
  have hlt := hdrTotalLength_lt h
  rw [hdrTw_wrap hw, Int.emod_eq_of_lt (by omega) (by omega)]

/-- The wrap adds 2^16 to a negative difference. -/
theorem hdrTw_wrap_of_le_four (hw : p.twtlWrap = true) (hlen : hdrTotalLength h ≤ 4) :
    hdrTw p h = (hdrTotalLength h : Int) + 65531 := by
  rw [hdrTw_wrap hw]
  omega

end Length

/-- Settles O26: a whole header's length can be read, and the wrap changes it below 5 only. -/
theorem telegramLengthValue : Obligations.TelegramLengthValue := by
  refine fun s hs => ⟨rfl, hdrTw s.params s.en.hdr, ?_, ?_⟩
  · rw [exec_hdrTelegramWithTagLength, hdrField_full _ _ hs, returnOrFault_ok]
  · rw [← hdrTotalLength_cast]
    exact ⟨hdrTw_exact, hdrTw_wrap_of_five_le, hdrTw_wrap_of_le_four⟩

/-! ### The verdict (R156, R158) -/

/-- The verdict is R156's conjunction. -/
theorem hdrConsistent_iff (p : Params) (h : Header) : hdrConsistent p h = true ↔
    h[0] = 0xDB#8 ∧ h[1] = 0x08#8 ∧ h[10] = 0x82#8 ∧ h[13] = 0x30#8 ∧ 25 < hdrTw p h := decide_eq_true_iff

/-- Settles O27: a whole header's verdict can be read, and it is the conjunction. -/
theorem consistencyIsFiveConditions : Obligations.ConsistencyIsFiveConditions := by
  refine fun s hs => ⟨rfl, hdrConsistent s.params s.en.hdr, ?_, hdrConsistent_iff s.params s.en.hdr⟩
  rw [exec_hdrCheckConsistency, hdrField_full _ _ hs, returnOrFault_ok]

/-- Settles O30: the fifth condition bounds tw, and without the wrap tw is `total_length − 5`. -/
theorem consistentHeaderLengths : Obligations.ConsistentHeaderLengths := by
  intro p h hc
  have hmin := hdrTw_of_consistent hc
  refine ⟨hmin, by omega, fun hw => ?_⟩
  rw [hdrTw_exact hw, hdrTotalLength_cast]
  omega

end Sys2Proof.Machine
end

section
/-! PROOFS. The AEAD adapter (43_aead_adapter.md R182, R183): each operation run on its own returns the oracle's answer,
and a plaintext that has not the ciphertext's length is a fault. -/

namespace Sys2Proof.Machine

/-! ### The key (R182) -/

theorem exec_aeadSetKey (key : Key) (s : State) :
    exec (.aeadSetKey key) s = .next { s with ret := .bool (aeadSetkey s.params key) } := rfl

/-- An answer the construction binds is the oracle's (log 5). -/
theorem aeadSetkey_bound {p : Params} {key : Key} {ok : Bool} (h : p.aeadKeyTable.lookup key = some ok) :
    aeadSetkey p key = ok := by rw [aeadSetkey, h]

/-- Settles O31: the operation returns the oracle's answer, which the key table binds, and it is internal (R82). -/
theorem aeadSetKeyReturnsAnswer : Obligations.AeadSetKeyReturnsAnswer :=
  fun key s => ⟨rfl, exec_aeadSetKey key s, fun _ => aeadSetkey_bound⟩

/-! ### The call (R183) -/

section Call
variable {p : Params} {q : AeadQuery}

theorem aeadCall_fail (h : aeadDecrypt p q = none) : aeadCall p q = .ok none := by rw [aeadCall, h]

theorem aeadCall_plaintext {l : List Byte} (h : aeadDecrypt p q = some l) (hlen : l.length = q.ct.length) :
    aeadCall p q = .ok (some l) := by
  rw [aeadCall, h]
  exact if_pos hlen

theorem aeadCall_wrongLength {l : List Byte} (h : aeadDecrypt p q = some l) (hlen : l.length ≠ q.ct.length) :
    aeadCall p q = .error .aeadLength := by
  rw [aeadCall, h]
  exact if_neg hlen

/-- A well-typed oracle's answer passes the length check (D32). -/
theorem aeadCall_typed (ht : oracleTyped p = true) : aeadCall p q = .ok (aeadDecrypt p q) := by
  cases h : aeadDecrypt p q with
  | none => exact aeadCall_fail h
  | some l => exact aeadCall_plaintext h (aeadDecrypt_length p q l ht h)

end Call

/-- A call that answers returns the answer and writes nothing else, `EN.pt` included (log 12). -/
theorem exec_aeadDecrypt_ok {q : AeadQuery} {s : State} {r : Option (List Byte)} (h : aeadCall s.params q = .ok r) :
    exec (.aeadDecrypt q.key q.nonce q.aad q.ct q.tag) s = .next { s with ret := .plaintext r } :=
  congrArg (fun c => returnOrFault s (aeadResult c)) h

theorem exec_aeadDecrypt_error {q : AeadQuery} {s : State} {f : Fault} (h : aeadCall s.params q = .error f) :
    exec (.aeadDecrypt q.key q.nonce q.aad q.ct q.tag) s = .fault f :=
  congrArg (fun c => returnOrFault s (aeadResult c)) h

/-- Settles O32: the checked call's three outcomes, of which a well-typed oracle has only the first two. -/
theorem aeadDecryptReturnsAnswer : Obligations.AeadDecryptReturnsAnswer :=
  fun q s =>
    ⟨fun hfail => exec_aeadDecrypt_ok (aeadCall_fail hfail),
      fun _ hplain hlen => exec_aeadDecrypt_ok (aeadCall_plaintext hplain hlen),
      fun _ hplain hlen => exec_aeadDecrypt_error (aeadCall_wrongLength hplain hlen),
      fun ht => ⟨aeadDecrypt s.params q, exec_aeadDecrypt_ok (aeadCall_typed ht)⟩⟩

end Sys2Proof.Machine
end

section
/-! PROOFS. The plaintext synchronizer byte by byte (44_plaintext_sync.md R211 to R221): one equation per transition of
`PT_PROCESS_BYTE`, and the block's invariant at construction (R222, R340). -/

namespace Sys2Proof.Machine

/-! ### Construction (R340) -/

/-- An empty buffer meets the buffer invariant at length 0. -/
theorem bufInv_nil (cap : Nat) : bufInv cap [] 0 := ⟨rfl, rfl, Nat.zero_le cap, by simp⟩

/-- A legal construction meets the invariant of both units. -/
theorem construct_inv {p : Params} (hp : 1 ≤ p.ptCap) : (State.construct p).Inv := by
  refine ⟨⟨hp, bufInv_nil _, Nat.zero_le 4, (ptStateInv_idle rfl).2 ?_⟩,
    bufInv_nil _, bufInv_nil _, Nat.zero_le 18, enStateInv_idle rfl⟩
  exact ⟨fun _ => rfl, fun _ => hp⟩

/-- Settles O11: `State.reset` is the construction with a `PT_CAP` of 16. -/
theorem constructionMeetsInvariant : Obligations.ConstructionMeetsInvariant :=
  ⟨fun _ => construct_inv, construct_inv (by decide)⟩

/-! ### The transitions, one rule each (R211 to R220) -/

section Rules
variable {p : Params} {b : Byte} {u : PtUnit}

/-- A state register that holds a state leaves the byte to the dispatch of R210. -/
theorem ptStep_dispatch (hs : u.state ≠ .reserved) : ptStep p b u = ptDispatch p b u := by
  cases h : u.state with
  | reserved => exact absurd h hs
  | idle | inFrame | inCrc => simp only [ptStep, h]

theorem ptFull_iff (p : Params) (u : PtUnit) : ptFull p u = true ↔ u.len = p.ptCap := decide_eq_true_iff

/-- T_SOF (R211). -/
theorem ptStep_sof (hs : u.state ≠ .reserved) (hc : 1 ≤ p.ptCap) :
    ptStep p slash u = .ok ({ u with buf := bufWrite u.buf 0 slash, len := 1, state := .inFrame },
      if u.state = .inFrame ∨ u.state = .inCrc then .error .packetStartSymbolInPacket else .none) := by
  have hwrite : memWrite p.ptCap u.buf 0 [slash] = .ok (bufWrite u.buf 0 slash) := memWrite_inside _ _ _ _ hc
  rw [ptStep_dispatch hs, ptDispatch, if_pos rfl]
  cases h : u.state <;> simp [tSof, hwrite, bind, Except.bind, h, raiseError, respondNone]

/-- T_OVF (R212). -/
theorem ptStep_ovf (hs : u.state ≠ .reserved) (hb : b ≠ slash) (hl : u.len = p.ptCap) :
    ptStep p b u = .ok ({ u with state := .idle, len := 0 }, .error .bufferOverflow) := by
  rw [ptStep_dispatch hs, ptDispatch, if_neg hb, if_pos ((ptFull_iff p u).2 hl)]
  rfl

section Room
variable (hb : b ≠ slash) (hl : u.len < p.ptCap)
include hb hl

/-- T_IDLE (R213). -/
theorem ptStep_idle (hs : u.state = .idle) : ptStep p b u = .ok (u, .none) := by
  simp [ptStep_dispatch, hs, ptDispatch, hb, ptFull_iff, hl.ne, tIdle, respondNone]

/-- The dispatch on a byte in `InFrame` (R214 to R216). -/
theorem ptStep_inFrame (hs : u.state = .inFrame) :
    ptStep p b u = if b = bang then (if p.ptCheckCrc then tEofCrc p u else tEofNoCrc p u) else tData p b u := by
  simp [ptStep_dispatch, hs, ptDispatch, hb, ptFull_iff, hl.ne]

/-- T_DATA (R214). -/
theorem ptStep_data (hs : u.state = .inFrame) (hb' : b ≠ bang) : ptStep p b u = .ok (ptAfterAppend b u, .none) := by
  rw [ptStep_inFrame hb hl hs, if_neg hb', tData, ptAppend_room p b u hl]
  rfl

/-- T_CRC_BAD (R217). -/
theorem ptStep_crcBad (hs : u.state = .inCrc) (hx : hexval b = none) :
    ptStep p b u = .ok (ptToIdle p u, .error .incorrectCrcCharacter) := by
  simp [ptStep_dispatch, hs, ptDispatch, hb, ptFull_iff, hl.ne, hx, tCrcBad, raiseError]

/-- The dispatch on a digit in `InCrc` (R218 to R220). -/
theorem ptStep_inCrc {d : Nibble} (hs : u.state = .inCrc) (hx : hexval b = some d) :
    ptStep p b u = tCrcDigit p d u := by
  simp [ptStep_dispatch, hs, ptDispatch, hb, ptFull_iff, hl.ne, hx]

/-- T_CRC_DIGIT before the fourth digit (R218). -/
theorem ptStep_crcDigit {d : Nibble} (hs : u.state = .inCrc) (hx : hexval b = some d) (hn : u.crcNibbles + 1 < 4) :
    ptStep p b u =
      .ok ({ u with crcAcc := foldNibble u.crcAcc d, crcNibbles := u.crcNibbles + 1 }, .none) := by
  rw [ptStep_inCrc hb hl hs hx, tCrcDigit, if_pos hn]
  rfl

/-- T_CRC_OK and T_CRC_MISMATCH: the fourth digit (R219, R220). -/
theorem ptStep_crcLast {d : Nibble} {l : List Byte} (hs : u.state = .inCrc) (hx : hexval b = some d)
    (hn : u.crcNibbles + 1 = 4) (hr : bufReadRange u.buf 0 u.len = some l) :
    ptStep p b u = .ok (ptToIdle p { u with crcAcc := foldNibble u.crcAcc d, crcNibbles := 4 },
      if foldNibble u.crcAcc d = crc16 l then .packet l else .error .crcMismatch) := by
  have hframe : ptFrame p { u with crcAcc := foldNibble u.crcAcc d, crcNibbles := 4 } = .ok l :=
    ptFrame_inside p _ l hl.le hr
  rw [ptStep_inCrc hb hl hs hx, tCrcDigit, hn, if_neg (Nat.lt_irrefl 4)]
  simp only [hframe, bind, Except.bind]
  split_ifs
  · simp only [tCrcOk, hframe, bind, Except.bind, respondPacket]
  · rfl

end Room

/-- T_EOF_CRC (R216). -/
theorem ptStep_eofCrc (hs : u.state = .inFrame) (hl : u.len < p.ptCap) (hc : p.ptCheckCrc = true) :
    ptStep p bang u =
      .ok ({ ptAfterAppend bang u with crcAcc := 0x0000#16, crcNibbles := 0, state := .inCrc }, .none) := by
  rw [ptStep_inFrame (by decide) hl hs, if_pos rfl, if_pos hc, tEofCrc, ptAppend_room p bang u hl]
  rfl

/-- T_EOF_NOCRC (R215): the frame that is delivered is the one collected so far, and the end sentinel. -/
theorem ptStep_eofNoCrc {l : List Byte} (hs : u.state = .inFrame) (hl : u.len < p.ptCap)
    (hc : p.ptCheckCrc = false) (hr : bufReadRange u.buf 0 u.len = some l) :
    ptStep p bang u = .ok (ptToIdle p (ptAfterAppend bang u), .packet (l ++ [bang])) := by
  rw [ptStep_inFrame (by decide) hl hs, if_pos rfl, if_neg (by rw [hc]; decide), tEofNoCrc,
    ptAppend_room p bang u hl]
  simp only [bind, Except.bind, ptFrame_snoc p u bang l hl hr, respondPacket]

end Rules

/-! ### The transitions as instructions -/

/-- `PT_PROCESS_BYTE` writes the unit and the response that the unit's step gives. -/
theorem exec_ptStep {s : State} {b : Byte} {u : PtUnit} {r : Response} (h : ptStep s.params b s.pt = .ok (u, r)) :
    exec (.ptProcessByte b) s = .next { s with pt := u, resp := r } :=
  congrArg (onPt s) h

/-- Settles O33: T_SOF, and a buffer write changes one index. -/
theorem slashStartsFrame : Obligations.SlashStartsFrame := fun s hs hc =>
  ⟨bufWrite s.pt.buf 0 slash, exec_ptStep (ptStep_sof hs hc), bufRead_bufWrite_same _ _ _,
    fun _ => bufRead_bufWrite_other _ _ _ _⟩

/-- Settles O34: T_OVF. -/
theorem fullBufferOverflows : Obligations.FullBufferOverflows := fun _ _ hs hb hl => exec_ptStep (ptStep_ovf hs hb hl)

/-- Settles O35: T_IDLE. -/
theorem idleByteIgnored : Obligations.IdleByteIgnored := fun _ _ hs hb hl => exec_ptStep (ptStep_idle hb hl hs)

/-- Settles O36: T_DATA, and a buffer write changes one index. -/
theorem bodyByteAppended : Obligations.BodyByteAppended := fun s b hs hb hb' hl =>
  ⟨bufWrite s.pt.buf s.pt.len b, exec_ptStep (ptStep_data hb hl hs hb'), bufRead_bufWrite_same _ _ _,
    fun _ => bufRead_bufWrite_other _ _ _ _⟩

/-- Settles O37: T_EOF_NOCRC, and a buffer write changes one index. -/
theorem endSentinelDelivers : Obligations.EndSentinelDelivers := fun s _ hs hl hc hr =>
  ⟨bufWrite s.pt.buf s.pt.len bang, exec_ptStep (ptStep_eofNoCrc hs hl hc hr), bufRead_bufWrite_same _ _ _,
    fun _ => bufRead_bufWrite_other _ _ _ _⟩

/-- Settles O38: T_EOF_CRC, and a buffer write changes one index. -/
theorem endSentinelOpensTrailer : Obligations.EndSentinelOpensTrailer := fun s hs hl hc =>
  ⟨bufWrite s.pt.buf s.pt.len bang, exec_ptStep (ptStep_eofCrc hs hl hc), bufRead_bufWrite_same _ _ _,
    fun _ => bufRead_bufWrite_other _ _ _ _⟩

/-- Settles O39: T_CRC_BAD. -/
theorem badTrailerCharacter : Obligations.BadTrailerCharacter := fun _ _ hs hb hl hx =>
  exec_ptStep (ptStep_crcBad hb hl hs hx)

/-- Settles O40: T_CRC_DIGIT before the fourth digit, and the fold as arithmetic (R93). -/
theorem trailerDigitFolded : Obligations.TrailerDigitFolded := fun s _ d hs hb hl hx hn =>
  ⟨foldNibble s.pt.crcAcc d, exec_ptStep (ptStep_crcDigit hb hl hs hx hn), foldNibble_toNat _ _⟩

/-- Settles O41: T_CRC_OK or T_CRC_MISMATCH. -/
theorem fourthDigitDecides : Obligations.FourthDigitDecides := fun _ _ _ _ hs hb hl hx hn hr =>
  exec_ptStep (ptStep_crcLast hb hl hs hx hn hr)

/-! ### The reset (R221) -/

theorem exec_ptReset (s : State) : exec .ptReset s = .next { s with pt := ptReset s.pt, resp := .none } := rfl

/-- Settles O42: the model's reset is the update of R221, and a state after it holds that update already. -/
theorem ptResetClears : Obligations.PtResetClears := by
  refine fun s => ⟨rfl, exec_ptReset s, fun t ht => ?_⟩
  obtain rfl := Host.Outcome.next.inj ht
  rfl

end Sys2Proof.Machine
end

section
/-! PROOFS. Whole plaintext frames (44_plaintext_sync.md R222 to R227): the run of a frame's bytes from any state that
meets the invariant, the byte after a packet that fills the buffer, and the shape of every packet. -/

namespace Sys2Proof.Machine

/-! ### Runs of the PT unit -/

/-- The bytes take the PT unit from `u` to the last unit, with one response each. -/
inductive PtAnswers (p : Params) : List Byte → PtUnit → List Response → PtUnit → Prop where
  | nil (u : PtUnit) : PtAnswers p [] u [] u
  | cons {b : Byte} {l : List Byte} {u v w : PtUnit} {r : Response} {rs : List Response}
      (hb : ptStep p b u = .ok (v, r)) (hl : PtAnswers p l v rs w) : PtAnswers p (b :: l) u (r :: rs) w

theorem PtAnswers.single {p : Params} {b : Byte} {u v : PtUnit} {r : Response} (h : ptStep p b u = .ok (v, r)) :
    PtAnswers p [b] u [r] v := .cons h (.nil v)

theorem PtAnswers.append {p : Params} {l k : List Byte} {u v w : PtUnit} {rs qs : List Response}
    (hl : PtAnswers p l u rs v) (hk : PtAnswers p k v qs w) : PtAnswers p (l ++ k) u (rs ++ qs) w := by
  induction hl with
  | nil => exact hk
  | cons hb _ ih => exact .cons hb (ih hk)

/-- One byte for the PT unit, as a transaction (R80, R210). -/
theorem transact_ptStep {s : State} {b : Byte} {u : PtUnit} {r : Response}
    (h : ptStep s.params b s.pt = .ok (u, r)) :
    transact s ⟨cmdWord 0x0#4 b, none⟩ = .next { s with pt := u, pending := [], resp := r } := by
  rw [transact_pt]
  exact exec_ptStep h

/-- The unit's answers as a run of the block, which leaves the EN unit alone (R69). -/
theorem PtAnswers.run {l : List Byte} {s : State} {v : PtUnit} {rs : List Response}
    (h : PtAnswers s.params l s.pt rs v) :
    ∃ s', Machine.run (ptFeed l) s = .done rs s' ∧ s'.pt = v ∧ s'.en = s.en := by
  generalize hp : s.params = p at h
  generalize hu : s.pt = u at h
  induction h generalizing s with
  | nil u => exact ⟨s, rfl, hu, rfl⟩
  | cons hb _ ih =>
    subst hp hu
    obtain ⟨s', hrun, hpt, hen⟩ := ih (s := { s with pt := _, pending := [], resp := _ }) rfl rfl
    exact ⟨s', run_cons (transact_ptStep hb) hrun, hpt, hen⟩

/-! ### The unit while a frame comes in -/

/-- The unit in `InFrame` after the bytes `l`, fed to the unit `u`. -/
def ptInFrame (u : PtUnit) (l : List Byte) : PtUnit :=
  { u with state := .inFrame, buf := bufWriteRange u.buf 0 l, len := l.length }

/-- The unit in `InCrc` after the bytes `l` and `n` trailer digits that fold to `acc`, fed to the unit `u`. -/
def ptInCrc (u : PtUnit) (l : List Byte) (acc : Word) (n : Nat) : PtUnit :=
  { u with
    state := .inCrc, buf := bufWriteRange u.buf 0 l, len := l.length, crcAcc := acc, crcNibbles := n }

/-- A unit whose invariant holds is not at encoding 3 (R22). -/
theorem PtInv.state_ne_reserved {p : Params} {u : PtUnit} (h : PtInv p u) : u.state ≠ .reserved := by
  obtain ⟨_, _, _, hst⟩ := h
  intro hs
  simp [ptStateInv, hs] at hst

section Frame
variable {p : Params} {u : PtUnit} {l : List Byte} {b : Byte}

/-- The buffer of an open frame gives back the bytes fed. -/
theorem ptInFrame_read : bufReadRange (ptInFrame u l).buf 0 (ptInFrame u l).len = some l :=
  bufReadRange_bufWriteRange u.buf 0 l

theorem ptInCrc_read {acc : Word} {n : Nat} :
    bufReadRange (ptInCrc u l acc n).buf 0 (ptInCrc u l acc n).len = some l :=
  bufReadRange_bufWriteRange u.buf 0 l

/-- An append to an open frame lengthens the bytes fed. -/
theorem ptInFrame_append : ptAfterAppend b (ptInFrame u l) = ptInFrame u (l ++ [b]) := by
  simp only [ptAfterAppend, ptInFrame, bufWriteRange_snoc, Nat.zero_add, List.length_append, List.length_singleton]

/-- `'/'` opens a frame; it reports a frame it cuts off, unless the unit was in `Idle` (R211). -/
theorem ptStep_start (h : PtInv p u) : ptStep p slash u =
    .ok (ptInFrame u [slash], if u.state = .idle then .none else .error .packetStartSymbolInPacket) := by
  have hs := h.state_ne_reserved
  rw [ptStep_sof hs h.1]
  cases hu : u.state with
  | reserved => exact absurd hu hs
  | idle | inFrame | inCrc => rfl

/-- Body bytes that fit are appended silently (R214). -/
theorem ptAnswers_body {body : List Byte} (hbody : ∀ b ∈ body, b ≠ slash ∧ b ≠ bang)
    (hcap : l.length + body.length ≤ p.ptCap) :
    PtAnswers p body (ptInFrame u l) (List.replicate body.length .none) (ptInFrame u (l ++ body)) := by
  induction body generalizing l with
  | nil => simpa using PtAnswers.nil (ptInFrame u l)
  | cons b body ih =>
    obtain ⟨⟨hslash, hbang⟩, htail⟩ := List.forall_mem_cons.1 hbody
    rw [List.length_cons] at hcap
    have hstep : ptStep p b (ptInFrame u l) = .ok (ptInFrame u (l ++ [b]), .none) := by
      rw [ptStep_data hslash (by simp only [ptInFrame]; omega) rfl hbang, ptInFrame_append]
    have hrest := ih (l := l ++ [b]) htail (by simp only [List.length_append, List.length_singleton]; omega)
    rw [List.append_assoc] at hrest
    exact .cons hstep hrest

/-- `'/'` and a body that fits (R211, R214). -/
theorem ptAnswers_opened {body : List Byte} (h : PtInv p u) (hbody : ∀ b ∈ body, b ≠ slash ∧ b ≠ bang)
    (hcap : body.length + 1 ≤ p.ptCap) :
    PtAnswers p (slash :: body) u
      ((if u.state = .idle then .none else .error .packetStartSymbolInPacket) :: List.replicate body.length .none)
      (ptInFrame u (slash :: body)) :=
  .cons (ptStep_start h) (ptAnswers_body hbody (by rw [List.length_singleton]; omega))

end Frame

/-! ### A frame without CRC -/

/-- Settles O44: the body is silent, and `'!'` delivers what was collected (R215). -/
theorem plainFrameDelivered : Obligations.PlainFrameDelivered := by
  intro s body hinv hc hbody hcap
  have hlast := ptStep_eofNoCrc (u := ptInFrame s.pt (slash :: body)) rfl hcap hc ptInFrame_read
  obtain ⟨s', hrun, hpt, hen⟩ :=
    ((ptAnswers_opened hinv.1 hbody (by omega)).append (.single hlast)).run
  exact ⟨s', hrun, by rw [hpt]; rfl, hen⟩

/-! ### The CRC trailer -/

/-- A word with one nibble appended, as arithmetic. -/
theorem append_nibble_toNat {w : Nat} (x : BitVec w) (d : Nibble) : (x ++ d).toNat = x.toNat * 16 + d.toNat := by
  rw [BitVec.toNat_append, ← Nat.shiftLeft_add_eq_or_of_lt d.isLt, Nat.shiftLeft_eq]

/-- Four digits fold to the word they spell, the first the most significant (R64, R93). -/
theorem foldNibble_four (d3 d2 d1 d0 : Nibble) :
    foldNibble (foldNibble (foldNibble (foldNibble 0x0000#16 d3) d2) d1) d0 = d3 ++ d2 ++ d1 ++ d0 := by
  have h3 := d3.isLt
  have h2 := d2.isLt
  have h1 := d1.isLt
  have h0 := d0.isLt
  apply BitVec.eq_of_toNat_eq
  simp only [foldNibble_toNat, append_nibble_toNat, BitVec.toNat_ofNat]
  omega

/-- A hex digit is not `'/'`. -/
theorem ne_slash_of_hexval {c : Byte} {d : Nibble} (h : hexval c = some d) : c ≠ slash := by
  rintro rfl
  cases h

section Trailer
variable {p : Params} {u : PtUnit} {l : List Byte}

/-- A trailer digit before the fourth (R218). -/
theorem ptStep_trailerDigit {c : Byte} {d : Nibble} {acc : Word} {n : Nat} (hl : l.length < p.ptCap)
    (hx : hexval c = some d) (hn : n + 1 < 4) :
    ptStep p c (ptInCrc u l acc n) = .ok (ptInCrc u l (foldNibble acc d) (n + 1), .none) :=
  ptStep_crcDigit (ne_slash_of_hexval hx) hl rfl hx hn

/-- The fourth digit, where the trailer matches the CRC of the bytes collected (R219). -/
theorem ptStep_trailerLast {c : Byte} {d : Nibble} {acc : Word} (hl : l.length < p.ptCap) (hx : hexval c = some d)
    (he : foldNibble acc d = crc16 l) :
    ptStep p c (ptInCrc u l acc 3) = .ok (ptToIdle p (ptInCrc u l (foldNibble acc d) 4), .packet l) := by
  rw [ptStep_crcLast (ne_slash_of_hexval hx) hl rfl hx rfl ptInCrc_read]
  exact congrArg (fun r => Except.ok (_, r)) (if_pos he)

/-- A matching trailer: three silent digits, and the packet. -/
theorem ptAnswers_trailer {c3 c2 c1 c0 : Byte} {d3 d2 d1 d0 : Nibble} (hl : l.length < p.ptCap)
    (h3 : hexval c3 = some d3) (h2 : hexval c2 = some d2) (h1 : hexval c1 = some d1) (h0 : hexval c0 = some d0)
    (he : crc16 l = d3 ++ d2 ++ d1 ++ d0) :
    PtAnswers p [c3, c2, c1, c0] (ptInCrc u l 0x0000#16 0) [.none, .none, .none, .packet l]
      (ptToIdle p (ptInCrc u l (crc16 l) 4)) := by
  have hfold := (foldNibble_four d3 d2 d1 d0).trans he.symm
  have hlast := ptStep_trailerLast (u := u) hl h0 hfold
  rw [hfold] at hlast
  exact .cons (ptStep_trailerDigit hl h3 (by decide)) (.cons (ptStep_trailerDigit hl h2 (by decide))
    (.cons (ptStep_trailerDigit hl h1 (by decide)) (.single hlast)))

/-- `'!'` opens the trailer of the frame it ends (R216). -/
theorem ptStep_openTrailer (hl : l.length < p.ptCap) (hc : p.ptCheckCrc = true) :
    ptStep p bang (ptInFrame u l) = .ok (ptInCrc u (l ++ [bang]) 0x0000#16 0, .none) := by
  rw [ptStep_eofCrc (u := ptInFrame u l) rfl hl hc, ptInFrame_append]
  rfl

end Trailer

/-- Settles O45: the body and `'!'` are silent (R214, R216), then the trailer delivers the frame (R218, R219). -/
theorem plainFrameWithTrailerDelivered : Obligations.PlainFrameWithTrailerDelivered := by
  intro s body c3 c2 c1 c0 d3 d2 d1 d0 hinv hc hbody hcap h3 h2 h1 h0 he
  have hframe : (slash :: body ++ [bang]).length < s.params.ptCap := by simpa using hcap
  have hopen := ptStep_openTrailer (u := s.pt) (l := slash :: body) (Nat.lt_of_succ_lt hcap) hc
  have hall := (ptAnswers_opened hinv.1 hbody (by omega)).append
    (.cons hopen (ptAnswers_trailer hframe h3 h2 h1 h0 he))
  obtain ⟨s', hrun, hpt, hen⟩ := hall.run
  refine ⟨s', ?_, by rw [hpt]; rfl, hen⟩
  have hnone : List.replicate (body.length + 4) Response.none =
      List.replicate body.length .none ++ [.none, .none, .none, .none] := List.replicate_append_replicate.symm
  simp only [hnone, List.cons_append, List.append_assoc] at hrun ⊢
  exact hrun

/-! ### The byte after a packet that fills the buffer (R226) -/

/-- Settles O46: without PT_CLEAR_ON_IDLE the packet leaves the buffer full (R215), and the next byte overflows it
(R212). -/
theorem overflowAfterFullPacket : Obligations.OverflowAfterFullPacket := by
  intro s body b hclear hc hs hcap hr hb
  have hpacket := ptStep_eofNoCrc hs (hcap ▸ Nat.lt_succ_self s.pt.len) hc hr
  have hfull : (ptToIdle s.params (ptAfterAppend bang s.pt)).len = s.params.ptCap := by
    rw [ptToIdle_len, hclear]
    exact hcap
  have hover := ptStep_ovf (by rw [ptToIdle_state]; decide) hb hfull
  obtain ⟨s', hrun, hpt, _⟩ := (PtAnswers.cons hpacket (.single hover)).run
  exact ⟨s', hrun, by rw [hpt], by rw [hpt]⟩

/-! ### The shape of a packet (R222, R223, R225) -/

/-- The bytes of a frame in `InFrame`: the start sentinel and a body without sentinels (R222). -/
theorem ptInFrameInv_shape {u : PtUnit} {l : List Byte} (h : ptInFrameInv u)
    (hr : bufReadRange u.buf 0 u.len = some l) :
    ∃ body, l = slash :: body ∧ ∀ c ∈ body, c ≠ slash ∧ c ≠ bang := by
  obtain ⟨⟨hpos, hfirst, hslash⟩, hbang⟩ := h
  obtain ⟨hlen, hread⟩ := bufReadRange_some _ _ _ _ hr
  simp only [Nat.zero_add] at hread
  cases l with
  | nil => exact absurd hpos (by rw [← hlen]; decide)
  | cons c body =>
    have hc : c = slash := Option.some.inj ((hread 0 (Nat.succ_pos _)).symm.trans hfirst)
    refine ⟨body, by rw [hc], fun d hd => ?_⟩
    obtain ⟨i, hi, rfl⟩ := List.mem_iff_getElem.1 hd
    have hat : bufRead u.buf (i + 1) = some body[i] := hread (i + 1) (Nat.succ_lt_succ hi)
    have hlt : i + 1 < u.len := hlen ▸ Nat.succ_lt_succ hi
    exact ⟨fun he => hslash (i + 1) hlt (Nat.le_add_left 1 i) (he ▸ hat), fun he => hbang (i + 1) hlt (he ▸ hat)⟩

/-- In `InCrc` the buffer holds a frame as in `InFrame`, and one byte more, the end sentinel (R222). -/
theorem ptInCrcInv_frame {p : Params} {u : PtUnit} (h : ptInCrcInv p u) :
    ptInFrameInv { u with len := u.len - 1 } ∧ bufRead u.buf (u.len - 1) = some bang := by
  obtain ⟨⟨_, hfirst, hslash⟩, hlen, hlast, hbang, _⟩ := h
  exact ⟨⟨⟨Nat.le_sub_of_add_le hlen, hfirst, fun i hi => hslash i (Nat.lt_of_lt_of_le hi (Nat.sub_le _ _))⟩, hbang⟩,
    hlast⟩

/-- A packet is a frame as in `InFrame` and the end sentinel. It fits, with a byte to spare in CRC mode. -/
theorem PtTransition.packet_frame {p : Params} {b : Byte} {u v : PtUnit} {bytes : List Byte}
    (ht : PtTransition p b u v (.packet bytes)) (h : PtInv p u) :
    ∃ w l, ptInFrameInv w ∧ bufReadRange w.buf 0 w.len = some l ∧ bytes = l ++ [bang] ∧
      bytes.length ≤ p.ptCap ∧ (p.ptCheckCrc = true → bytes.length < p.ptCap) := by
  obtain ⟨_, hbuf, _, hst⟩ := h
  generalize hresp : Response.packet bytes = r at ht
  cases ht with
  | eofNoCrc bytes' hb hl hs hc hr =>
    obtain rfl := Response.packet.inj hresp
    obtain ⟨hlen, _⟩ := bufReadRange_some _ _ _ _ hr
    obtain ⟨l, hread⟩ := bufInv_read hbuf
    have hbytes : bytes = l ++ [bang] := Option.some.inj (hr.symm.trans (bufReadRange_snoc _ _ _ _ hread))
    exact ⟨u, l, (ptStateInv_inFrame hs).1 hst, hread, hbytes, hlen.trans_le hl, fun hc' => by simp [hc] at hc'⟩
  | crcOk d bytes' hb hl hs hx hn hr he =>
    obtain rfl := Response.packet.inj hresp
    obtain ⟨hlen, _⟩ := bufReadRange_some _ _ _ _ hr
    have hcrc := (ptStateInv_inCrc hs).1 hst
    have ⟨⟨hpos, _⟩, _⟩ := hcrc
    obtain ⟨hframe, hlast⟩ := ptInCrcInv_frame hcrc
    have hread := bufReadRange_take u.buf bytes 0 u.len (u.len - 1) hr (Nat.sub_le _ _)
    have hall := bufReadRange_succ u.buf 0 (u.len - 1) _ bang hread (by rwa [Nat.zero_add])
    rw [Nat.sub_add_cancel hpos] at hall
    have hbytes : bytes = bytes.take (u.len - 1) ++ [bang] := Option.some.inj (hr.symm.trans hall)
    exact ⟨_, _, hframe, hread, hbytes, (hlen.trans_lt hl).le, fun _ => hlen.trans_lt hl⟩
  | sof => split_ifs at hresp
  | _ => cases hresp

/-- Settles O47: the byte's transition delivers a frame of the shape of R222, and `'!'` after it. -/
theorem packetHasFrameShape : Obligations.PacketHasFrameShape := by
  intro s t b bytes hinv h hresp
  obtain ⟨u, r, hstep, rfl⟩ := onPt_next _ _ _ h
  obtain rfl : r = .packet bytes := hresp
  obtain ⟨w, l, hw, hr, rfl, hfit, hspare⟩ := (ptStep_transition _ _ _ _ _ hstep).packet_frame hinv.1
  obtain ⟨body, rfl, hbody⟩ := ptInFrameInv_shape hw hr
  exact ⟨body, rfl, hbody, hfit, hspare⟩

end Sys2Proof.Machine
end

section
/-! PROOFS. The encrypted frame synchronizer byte by byte (45_encrypted_sync.md R251 to R258), its reset (R261) and its
key (R262): the transitions of `EN_PROCESS_BYTE` as equations, and the three operations as instructions. -/

namespace Sys2Proof.Machine

/-! ### Idle and the header (R252, R254, R255) -/

section Rules
variable {p : Params} {b : Byte} {u : EnUnit}

/-- E_IDLE (R252). -/
theorem enStep_idle (hs : u.state = .idle) (hb : b ≠ enSentinel) : enStep p b u = .ok (u, .none) := by
  simp only [enStep, hs, enIsSof, decide_eq_true_eq, if_neg hb, eIdle, respondNone]

/-- The 18th header byte is stored, and the verdict on the header follows (R254 to R256). -/
theorem enStep_hdrLast (hs : u.state = .accumulatingHeader) (hc : u.hdrCount = 17) :
    enStep p b u =
      if hdrConsistent p (u.hdr.set 17 b) then
        if hdrTw p (u.hdr.set 17 b) > p.enCap then eHdrOvf { u with hdr := u.hdr.set 17 b, hdrCount := 18 }
        else eHdrOk { u with hdr := u.hdr.set 17 b, hdrCount := 18 }
      else eHdrBad { u with hdr := u.hdr.set 17 b, hdrCount := 18 } := by
  have hadd : hdrAddByte b u = .ok { u with hdr := u.hdr.set 17 b, hdrCount := 18 } := by
    simp [hdrAddByte, hc]
  simp only [enStep, hs, eHdrByte, hadd, bind, Except.bind]
  simp [hdrComplete, hdrField]

/-- E_HDR_BAD (R254). -/
theorem enStep_hdrBad (hs : u.state = .accumulatingHeader) (hc : u.hdrCount = 17)
    (hcons : hdrConsistent p (u.hdr.set 17 b) = false) :
    enStep p b u =
      .ok ({ u with state := .idle, hdr := u.hdr.set 17 b, hdrCount := 18 }, .error .headerCorrupted) := by
  rw [enStep_hdrLast hs hc, hcons, if_neg Bool.false_ne_true]
  rfl

/-- E_HDR_OVF (R255). -/
theorem enStep_hdrOvf (hs : u.state = .accumulatingHeader) (hc : u.hdrCount = 17)
    (hcons : hdrConsistent p (u.hdr.set 17 b) = true) (htw : p.enCap < hdrTw p (u.hdr.set 17 b)) :
    enStep p b u =
      .ok ({ u with state := .idle, hdr := u.hdr.set 17 b, hdrCount := 18 }, .error .bufferOverflow) := by
  rw [enStep_hdrLast hs hc, if_pos hcons, if_pos htw]
  rfl

/-! ### The completion (R258) -/

/-- The last byte of the telegram is stored, and the frame completes. -/
theorem enStep_ctLast (hs : u.state = .accumulatingTelegram) (hn : u.hdrCount = 18) (hl : u.ctLen < p.enCap)
    (htw : hdrTw p u.hdr ≤ (u.ctLen : Int) + 1) : enStep p b u = eCtDone p (enAfterCipher b u) := by
  rw [← eCtByte_last p b u hn hl htw]
  simp only [enStep, hs]

/-- No frame completes without a key (D9). -/
theorem eCtDone_noKey (hk : u.keyLoaded = false) : eCtDone p u = .error .keyNotLoaded := if_pos hk

/-- The key is offered to the primitive before the call is made. -/
theorem eCtDone_keyRejected (hk : u.keyLoaded = true) (ha : aeadSetkey p u.key = false) :
    eCtDone p u = .ok ({ u with state := .idle }, .error .failedToSetEncryptionKey) :=
  (if_neg (by simp only [hk, Bool.true_eq_false, not_false_eq_true])).trans (if_pos ha)

section Called
variable {q : AeadQuery} (hk : u.keyLoaded = true) (ha : aeadSetkey p u.key = true)
  (hq : enQuery p { u with state := .idle } = .ok q)
include hk ha hq

theorem eCtDone_decryptFailed (hd : aeadDecrypt p q = none) :
    eCtDone p u = .ok ({ u with state := .idle }, .error .decryptionFailed) := by
  rw [eCtDone_called p u q hk ha hq, hd]

theorem eCtDone_delivered {plain : List Byte} (hd : aeadDecrypt p q = some plain) (hlen : plain.length = q.ct.length)
    (hcap : plain.length ≤ p.enCap) :
    eCtDone p u = .ok ({ u with state := .idle, pt := bufWriteRange u.pt 0 plain }, .packet plain) := by
  rw [eCtDone_called p u q hk ha hq, hd]
  exact (if_neg (not_not.2 hlen)).trans (if_neg (Nat.not_lt.2 hcap))

end Called

/-- The call of a frame whose last byte is `b` and whose earlier ones are in the buffer (R184). -/
theorem enQuery_afterLast {l : List Byte} (hn : u.hdrCount = 18) (hl : u.ctLen < p.enCap)
    (htw : (u.ctLen : Int) + 1 = hdrTw p u.hdr) (hmin : 11 ≤ u.ctLen) (hr : bufReadRange u.ct 0 u.ctLen = some l) :
    enQuery p { enAfterCipher b u with state := .idle } = .ok (frameQuery u (l ++ [b])) := by
  obtain ⟨hlen, _⟩ := bufReadRange_some _ _ _ _ hr
  have hlast : (l ++ [b]).length = u.ctLen + 1 := by rw [List.length_append, hlen, List.length_singleton]
  have hread := bufReadRange_snoc _ _ _ b hr
  rw [← hlast] at hread
  exact enQuery_frame p { enAfterCipher b u with state := .idle } (l ++ [b]) hn (by rw [hlast]; exact htw) (by omega)
    (by omega) hread

end Rules

/-! ### The transitions as instructions -/

/-- `EN_PROCESS_BYTE` writes the unit and the response that the unit's step gives. -/
theorem exec_enStep {s : State} {b : Byte} {u : EnUnit} {r : Response} (h : enStep s.params b s.en = .ok (u, r)) :
    exec (.enProcessByte b) s = .next { s with en := u, resp := r } :=
  congrArg (onEn s) h

theorem exec_enStep_error {s : State} {b : Byte} {f : Fault} (h : enStep s.params b s.en = .error f) :
    exec (.enProcessByte b) s = .fault f :=
  congrArg (onEn s) h

/-- Settles O53: the frame completes, and the completion's outcomes are those of the whole frame's call. -/
theorem frameCompletionOutcome : Obligations.FrameCompletionOutcome := by
  intro s b l hs hn hl htw hmin hr
  have hlast : enStep s.params b s.en = eCtDone s.params (enAfterCipher b s.en) := enStep_ctLast hs hn hl htw.ge
  have hq := enQuery_afterLast (b := b) hn hl htw hmin hr
  obtain ⟨hlen, _⟩ := bufReadRange_some _ _ _ _ hr
  refine ⟨fun hk => ?_, fun hk ha => ?_, fun hk ha hd => ?_, fun plain hk ha hd hplain => ?_⟩
  · exact exec_enStep_error (hlast.trans (eCtDone_noKey hk))
  · exact ⟨_, exec_enStep (hlast.trans (eCtDone_keyRejected hk ha)), rfl, rfl, hn, rfl⟩
  · exact ⟨_, exec_enStep (hlast.trans (eCtDone_decryptFailed hk ha hq hd)), rfl, rfl, hn, rfl⟩
  · have hct : plain.length = (frameQuery s.en (l ++ [b])).ct.length := by
      simp only [frameQuery, List.length_take, List.length_append, List.length_singleton]
      omega
    have hdone := eCtDone_delivered (u := enAfterCipher b s.en) hk ha hq hd hct (by omega)
    exact ⟨_, exec_enStep (hlast.trans hdone), rfl, rfl, bufReadRange_bufWriteRange s.en.pt 0 plain, hn, rfl⟩

/-- Settles O48: E_SOF, and the header keeps every byte but the first. -/
theorem sentinelStartsHeader : Obligations.SentinelStartsHeader := fun s hs =>
  ⟨s.en.hdr.set 0 enSentinel, exec_enStep (enStep_sof hs), Vector.getElem_set_self _,
    fun _ hi hne => Vector.getElem_set_ne _ hi hne.symm⟩

/-- Settles O49: E_IDLE. -/
theorem enIdleByteIgnored : Obligations.EnIdleByteIgnored := fun _ _ hs hb => exec_enStep (enStep_idle hs hb)

/-- Settles O50: E_HDR_BYTE before the 18th byte, and the header keeps every byte but the one stored. -/
theorem headerByteCollected : Obligations.HeaderByteCollected := by
  intro s b hs hc
  refine ⟨_, exec_enStep (enStep_hdrByte hs (Nat.lt_of_succ_lt_succ hc)), fun i hi => ?_⟩
  simp only [Vector.getElem_set, eq_comm]

/-- Settles O51: E_HDR_BAD, E_HDR_OVF and E_HDR_OK. -/
theorem eighteenthByteVerdict : Obligations.EighteenthByteVerdict := by
  rintro s b _ hs hc rfl
  exact ⟨fun hbad => exec_enStep (enStep_hdrBad hs hc hbad),
    fun hcons htw => exec_enStep (enStep_hdrOvf hs hc hcons htw),
    fun hcons htw => exec_enStep (enStep_hdrOk hs hc hcons htw)⟩

/-- Settles O52: E_CT_BYTE before the last byte, and a buffer write changes one index. -/
theorem cipherByteStored : Obligations.CipherByteStored := fun s b hs hn hl htw =>
  ⟨bufWrite s.en.ct s.en.ctLen b, exec_enStep (enStep_ctByte hs hn hl htw), bufRead_bufWrite_same _ _ _,
    fun _ => bufRead_bufWrite_other _ _ _ _⟩

/-! ### The reset (R261) -/

theorem exec_enReset (s : State) : exec .enReset s = .next { s with en := enReset s.en, resp := .none } := rfl

/-- Settles O54: the model's reset is the update of R261, and a state after it holds that update already. -/
theorem enResetClears : Obligations.EnResetClears := by
  refine fun s => ⟨rfl, exec_enReset s, fun t ht => ?_⟩
  obtain rfl := Host.Outcome.next.inj ht
  rfl

/-! ### The key (R262) -/

/-- A string that KEY_DECODE rejects changes nothing but the response (D10). -/
theorem exec_enSetKey_rejected {str : List Byte} {s : State} {k : ErrorKind} (h : keyDecode str = .error k) :
    exec (.enSetKey str) s = .next { s with resp := .error k } := by
  have hset : enSetKey str s.en = .ok (s.en, .error k) := by simp only [enSetKey, h, raiseError]
  exact congrArg (onEn s) hset

theorem exec_enSetKey_stored {str : List Byte} {s : State} {key : Key} (h : keyDecode str = .ok key) :
    exec (.enSetKey str) s = .next { s with en := { s.en with key := key, keyLoaded := true }, resp := .none } := by
  have hset : enSetKey str s.en = .ok ({ s.en with key := key, keyLoaded := true }, .none) := by
    simp only [enSetKey, h, respondNone]
  exact congrArg (onEn s) hset

/-- Settles O22: the three answers of `KEY_DECODE` decide. -/
theorem setKeyStoresOrRejects : Obligations.SetKeyStoresOrRejects := fun _ _ =>
  ⟨rfl, fun hl => exec_enSetKey_rejected (keyDecode_length hl),
    fun hl hx => exec_enSetKey_rejected (keyDecode_notHex hl hx),
    fun hl hx => ⟨_, keyDecode_hex hl hx, exec_enSetKey_stored (keyDecode_hex hl hx)⟩⟩

end Sys2Proof.Machine
end

section
/-! PROOFS. Errors and completion (60_exceptions.md R301, R302, R307, R313): the codes of the errors, the state each
error leaves, and the outcomes of every host operation from a state that meets the invariant. -/

namespace Sys2Proof.Machine

/-! ### The idle block and the response record (R84, R301, R313) -/

/-- Settles O8: with nothing pending there is nothing to fetch. -/
theorem idleBlockHoldsState : Obligations.IdleBlockHoldsState := fun s hp => by
  simp only [step, fetch_nil s hp]

theorem errorCode_range (k : ErrorKind) : 1 ≤ (errorCode k).toNat ∧ (errorCode k).toNat ≤ 9 := by
  cases k <;> decide

/-- Settles O58: the record by the kind of the response; only an error's has a code, which is in the table's range. -/
theorem responseRecordCodes : Obligations.ResponseRecordCodes := by
  refine ⟨rfl, fun r => ?_, fun _ => rfl, fun _ => rfl, fun _ => rfl, rfl⟩
  cases r with
  | error k => exact ⟨by simp [responseRecord], fun _ => errorCode_range k, fun h => absurd rfl h, rfl⟩
  | none | packet l | crc w => simp [responseRecord]

/-! ### The state after an error (R302) -/

/-- An error leaves the PT unit in `Idle`, but the one of a start sentinel within a frame, which starts the next frame
(R211). -/
theorem PtTransition.after_error {p : Params} {b : Byte} {u v : PtUnit} {k : ErrorKind}
    (ht : PtTransition p b u v (.error k)) :
    (k ≠ .packetStartSymbolInPacket → v.state = .idle) ∧ (k = .bufferOverflow → v.len = 0) ∧
      (k = .packetStartSymbolInPacket → v.state = .inFrame ∧ v.len = 1 ∧ bufRead v.buf 0 = some slash) := by
  generalize hresp : Response.error k = r at ht
  cases ht with
  | sof hb hc =>
    split_ifs at hresp
    obtain rfl := Response.error.inj hresp
    exact ⟨fun hne => absurd rfl hne, nofun, fun _ => ⟨rfl, rfl, bufRead_bufWrite_same _ _ _⟩⟩
  | ovf hb hl =>
    obtain rfl := Response.error.inj hresp
    exact ⟨fun _ => rfl, fun _ => rfl, nofun⟩
  | crcBad | crcMismatch =>
    obtain rfl := Response.error.inj hresp
    exact ⟨fun _ => rfl, nofun, nofun⟩
  | _ => cases hresp

/-- An error leaves the EN unit in `Idle`, and is never the one of a start sentinel within a frame. -/
theorem EnTransition.after_error {p : Params} {b : Byte} {u v : EnUnit} {k : ErrorKind}
    (ht : EnTransition p b u v (.error k)) : k ≠ .packetStartSymbolInPacket ∧ v.state = .idle := by
  cases ht <;> exact ⟨nofun, rfl⟩

/-- Settles O57: each unit's transitions, and a key string that is rejected. -/
theorem stateAfterError : Obligations.StateAfterError := by
  refine ⟨fun s t b k h hresp => ?_, fun s t b k h hresp => ?_, fun s t str k h hresp => ?_⟩
  · obtain ⟨u, r, hstep, rfl⟩ := onPt_next _ _ _ h
    obtain rfl : r = .error k := hresp
    exact (ptStep_transition _ _ _ _ _ hstep).after_error
  · obtain ⟨u, r, hstep, rfl⟩ := onEn_next _ _ _ h
    obtain rfl : r = .error k := hresp
    exact (enStep_transition _ _ _ _ _ hstep).after_error
  · cases hk : keyDecode str with
    | error k' =>
      obtain rfl := Host.Outcome.next.inj ((exec_enSetKey_rejected hk).symm.trans h)
      obtain rfl := Response.error.inj hresp
      rfl
    | ok key =>
      obtain rfl := Host.Outcome.next.inj ((exec_enSetKey_stored hk).symm.trans h)
      cases hresp

/-! ### Completion (R307) -/

/-- Under its invariant the PT unit answers every byte. -/
theorem ptStep_answers {p : Params} {u : PtUnit} (h : PtInv p u) (b : Byte) : ∃ x, ptStep p b u = .ok x := by
  have hres := h.state_ne_reserved
  obtain ⟨hp, hbuf, _, hst⟩ := h
  obtain ⟨l, hread⟩ := bufInv_read hbuf
  by_cases hb : b = slash
  · subst hb
    exact ⟨_, ptStep_sof hres hp⟩
  by_cases hfull : u.len = p.ptCap
  · exact ⟨_, ptStep_ovf hres hb hfull⟩
  have hl : u.len < p.ptCap := Nat.lt_of_le_of_ne hbuf.2.2.1 hfull
  cases hs : u.state with
  | idle => exact ⟨_, ptStep_idle hb hl hs⟩
  | inFrame =>
    by_cases hbang : b = bang
    · subst hbang
      cases hc : p.ptCheckCrc with
      | true => exact ⟨_, ptStep_eofCrc hs hl hc⟩
      | false => exact ⟨_, ptStep_eofNoCrc hs hl hc hread⟩
    · exact ⟨_, ptStep_data hb hl hs hbang⟩
  | inCrc =>
    obtain ⟨_, _, _, _, hdigits, _⟩ := (ptStateInv_inCrc hs).1 hst
    cases hx : hexval b with
    | none => exact ⟨_, ptStep_crcBad hb hl hs hx⟩
    | some d =>
      rcases Nat.lt_or_eq_of_le hdigits with hlt | heq
      · exact ⟨_, ptStep_crcDigit hb hl hs hx (Nat.succ_lt_succ hlt)⟩
      · exact ⟨_, ptStep_crcLast hb hl hs hx (congrArg Nat.succ heq) hread⟩
  | reserved => exact absurd hs hres

/-- What an EN transaction may answer: a unit and a response, or one of R307's two faults with its cause. -/
def enCompletes (p : Params) (u : EnUnit) (r : EnOut) : Prop :=
  (∃ x, r = .ok x) ∨ (r = .error .keyNotLoaded ∧ u.keyLoaded = false) ∨
    (r = .error .aeadLength ∧ oracleTyped p = false)

/-- An answer of the wrong length is a fault (R183). -/
theorem eCtDone_wrongLength {p : Params} {u : EnUnit} {q : AeadQuery} {plain : List Byte} (hk : u.keyLoaded = true)
    (ha : aeadSetkey p u.key = true) (hq : enQuery p { u with state := .idle } = .ok q)
    (hd : aeadDecrypt p q = some plain) (hlen : plain.length ≠ q.ct.length) :
    eCtDone p u = .error .aeadLength := by
  rw [eCtDone_called p u q hk ha hq, hd]
  exact if_pos hlen

/-- A frame whose call can be made completes, or meets one of the two faults (R258). -/
theorem eCtDone_completes {p : Params} {u : EnUnit} {q : AeadQuery}
    (hq : enQuery p { u with state := .idle } = .ok q) (hcap : q.ct.length ≤ p.enCap) :
    enCompletes p u (eCtDone p u) := by
  cases hk : u.keyLoaded with
  | false => exact .inr (.inl ⟨eCtDone_noKey hk, hk⟩)
  | true =>
    cases ha : aeadSetkey p u.key with
    | false => exact .inl ⟨_, eCtDone_keyRejected hk ha⟩
    | true =>
      cases hd : aeadDecrypt p q with
      | none => exact .inl ⟨_, eCtDone_decryptFailed hk ha hq hd⟩
      | some plain =>
        by_cases hlen : plain.length = q.ct.length
        · exact .inl ⟨_, eCtDone_delivered hk ha hq hd hlen (hlen ▸ hcap)⟩
        · refine .inr (.inr ⟨eCtDone_wrongLength hk ha hq hd hlen, Bool.eq_false_iff.2 fun ht => ?_⟩)
          exact hlen (aeadDecrypt_length p q plain ht hd)

/-- A header byte is always answered: there is room, and on the 18th one of the three verdicts holds (R253 to R256). -/
theorem enStep_header_answers {p : Params} {u : EnUnit} (b : Byte) (hs : u.state = .accumulatingHeader)
    (hc : u.hdrCount ≤ 17) : ∃ x, enStep p b u = .ok x := by
  rcases Nat.lt_or_eq_of_le hc with hlt | heq
  · exact ⟨_, enStep_hdrByte hs hlt⟩
  cases hcons : hdrConsistent p (u.hdr.set 17 b) with
  | false => exact ⟨_, enStep_hdrBad hs heq hcons⟩
  | true =>
    rcases Int.lt_or_le (p.enCap : Int) (hdrTw p (u.hdr.set 17 b)) with hover | hfits
    · exact ⟨_, enStep_hdrOvf hs heq hcons hover⟩
    · exact ⟨_, enStep_hdrOk hs heq hcons hfits⟩

/-- A ciphertext or tag byte completes, or meets one of the two faults: the buffer has room, and at the last byte it
holds the whole frame (R257, R258). -/
theorem enStep_telegram_completes {p : Params} {u : EnUnit} (b : Byte) (hs : u.state = .accumulatingTelegram)
    (hct : bufInv p.enCap u.ct u.ctLen) (h : enTelegramInv p u) : enCompletes p u (enStep p b u) := by
  obtain ⟨hn, _, hmin, hmax, htw⟩ := h
  have hl : u.ctLen < p.enCap := by omega
  rcases Int.lt_or_le ((u.ctLen : Int) + 1) (hdrTw p u.hdr) with hmore | hlast
  · exact .inl ⟨_, enStep_ctByte hs hn hl hmore⟩
  · obtain ⟨l, hread⟩ := bufInv_read hct
    obtain ⟨hlen, _⟩ := bufReadRange_some _ _ _ _ hread
    have hq := enQuery_afterLast (b := b) hn hl (by omega) (by omega) hread
    have hcap : (frameQuery u (l ++ [b])).ct.length ≤ p.enCap := by
      simp only [frameQuery, List.length_take, List.length_append, List.length_singleton]
      omega
    rw [enStep_ctLast hs hn hl hlast]
    exact eCtDone_completes hq hcap

/-- Under its invariant the EN unit completes every byte, or meets one of the two faults. -/
theorem enStep_completes {p : Params} {u : EnUnit} (h : EnInv p u) (b : Byte) :
    enCompletes p u (enStep p b u) := by
  obtain ⟨hct, _, _, hst⟩ := h
  cases hs : u.state with
  | idle =>
    by_cases hb : b = enSentinel
    · subst hb
      exact .inl ⟨_, enStep_sof hs⟩
    · exact .inl ⟨_, enStep_idle hs hb⟩
  | accumulatingHeader =>
    obtain ⟨_, hc, _⟩ := (enStateInv_header hs).1 hst
    exact .inl (enStep_header_answers b hs hc)
  | accumulatingTelegram => exact enStep_telegram_completes b hs hct ((enStateInv_telegram hs).1 hst)
  | reserved => simp [enStateInv, hs] at hst

/-- Settles O13: the resets, the key and the CRC answer in every state, the units' bytes under their invariants. -/
theorem hostTransactionCompletes : Obligations.HostTransactionCompletes := by
  intro s i h hi
  cases i with
  | ptProcessByte b =>
    obtain ⟨⟨u, r⟩, hstep⟩ := ptStep_answers h.1 b
    exact .inl ⟨_, exec_ptStep hstep⟩
  | ptReset => exact .inl ⟨_, exec_ptReset s⟩
  | enProcessByte b =>
    rcases enStep_completes h.2 b with ⟨⟨u, r⟩, hstep⟩ | ⟨hfault, hk⟩ | ⟨hfault, ht⟩
    · exact .inl ⟨_, exec_enStep hstep⟩
    · exact .inr (.inl ⟨exec_enStep_error hfault, hk⟩)
    · exact .inr (.inr ⟨exec_enStep_error hfault, ht⟩)
  | enReset => exact .inl ⟨_, exec_enReset s⟩
  | enSetKey str =>
    cases hk : keyDecode str with
    | error k => exact .inl ⟨_, exec_enSetKey_rejected hk⟩
    | ok key => exact .inl ⟨_, exec_enSetKey_stored hk⟩
  | crc16Compute str => exact .inl ⟨_, exec_crc16Compute str s⟩
  | _ => exact absurd hi Bool.false_ne_true

end Sys2Proof.Machine
end

section
/-! PROOFS. The values construction leaves (70_reset_and_hazards.md R340): one lemma per field the rule fixes. The bytes
it leaves unspecified have none. -/

namespace Sys2Proof.Machine

/-! ### The PT unit at construction (R22 to R26) -/

@[simp] theorem PtUnit.init_state : PtUnit.init.state = .idle := rfl
@[simp] theorem PtUnit.init_len : PtUnit.init.len = 0 := rfl
@[simp] theorem PtUnit.init_crcAcc : PtUnit.init.crcAcc = 0x0000#16 := rfl
@[simp] theorem PtUnit.init_crcNibbles : PtUnit.init.crcNibbles = 0 := rfl

/-! ### The EN unit at construction (R28 to R32) -/

@[simp] theorem EnUnit.init_state : EnUnit.init.state = .idle := rfl
@[simp] theorem EnUnit.init_hdrCount : EnUnit.init.hdrCount = 0 := rfl
@[simp] theorem EnUnit.init_ctLen : EnUnit.init.ctLen = 0 := rfl
@[simp] theorem EnUnit.init_keyLoaded : EnUnit.init.keyLoaded = false := rfl

/-- Settles O10: construction's units are the two initial ones whatever the parameters, and each value is a field of
one of them. -/
theorem constructionLeavesStatedValues : Obligations.ConstructionLeavesStatedValues := by
  intro p
  rw [construct_pt, construct_en]
  exact ⟨construct_params p, PtUnit.init_state, EnUnit.init_state, PtUnit.init_len, PtUnit.init_crcNibbles,
    EnUnit.init_hdrCount, EnUnit.init_ctLen, PtUnit.init_crcAcc, EnUnit.init_keyLoaded⟩

end Sys2Proof.Machine
end
